-- ==== Sys2Proof/Word.lean ====
section
/-! DEFINITION. The word types of the sha_hash engine: 64-bit storage words, message bytes, and the two
hash variants (00_scope.md R2, R8, R9; 10_state.md R22). Bit 0 is the least significant bit everywhere. -/

namespace Sys2Proof

/-- One 64-bit storage word: a host register, or one entry of H, V or Ws (R22, R32). -/
abbrev Word := BitVec 64

/-- One byte of the message memory (R61). -/
abbrev Byte := BitVec 8

/-- The two variants the engine implements (R2): V32 is SHA-256, V64 is SHA-512. No other exists. -/
inductive Variant where
  /-- VAR = 0: 32-bit words. -/
  | v32
  /-- VAR = 1: 64-bit words. -/
  | v64
deriving DecidableEq, Repr

end Sys2Proof
end

