-- ==== Sys2Proof/Machine/CommandWord.lean ====
section
/-! DEFINITION. The fields of a command word and its legality (30_encoding.md R82 to R84). -/

namespace Sys2Proof.Machine

/-- OP = c[3:0] (R82). -/
def cmdOp (c : Word) : BitVec 4 := c.extractLsb' 0 4

/-- V = c[4] (R82). -/
def cmdV (c : Word) : Bool := c.getLsbD 4

/-- RSV = c[63:5] (R82). -/
def cmdRsv (c : Word) : BitVec 59 := c.extractLsb' 5 59

/-- Legality of a command word: the three conditions of R84. It depends on c alone, never on STATE. -/
def cmdLegal (c : Word) : Bool :=
  cmdRsv c == 0 &&
  (cmdOp c == 0x0 || cmdOp c == 0x1 || cmdOp c == 0x2) &&
  (!cmdV c || cmdOp c == 0x1)

/-- The command word of the fields (R82): RSV in 63:5, V in 4, OP in 3:0. -/
def cmdWord (rsv : BitVec 59) (v : Bool) (op : BitVec 4) : Word :=
  (rsv ++ BitVec.ofBool v) ++ op

end Sys2Proof.Machine
end

