-- ==== Sys2Proof/Syntax.lean ====
section
/-! DEFINITION. The instructions: one constructor per row of spec/opcode_table.json. The engine has three
encoded things (30_encoding.md): host transactions (header rows), command words (CMD rows) and STATE
codes (the engine's own steps). -/

namespace Sys2Proof

/-- One instruction: a host transaction, a command word, or a step of the driver FSM. -/
inductive Instr where
  /-- RD (R181): read register `ridx`. -/
  | rd (ridx : BitVec 5)
  /-- WR_CMD (R180): write a command word to index 0. -/
  | wrCmd (wdata : Word)
  /-- WR_STATUS (R187): a write to read-only index 1. -/
  | wrStatus (wdata : Word)
  /-- WR_MSG_LEN (R182): write the byte count to index 2. -/
  | wrMsgLen (wdata : Word)
  /-- WR_NBLK (R187): a write to read-only index 3. -/
  | wrNblk (wdata : Word)
  /-- WR_BLKCNT_RSV (R187): a write to index 4 + `low` (BLKCNT, reserved 5..7). -/
  | wrBlkcntRsv (low : BitVec 2) (wdata : Word)
  /-- WR_DIGEST (R187): a write to index 8 + `k`. -/
  | wrDigest (k : BitVec 3) (wdata : Word)
  /-- WR_WV_RSV (R187): a write to index 16 + `low` (WV_A..WV_H, reserved 24..31). -/
  | wrWvRsv (low : BitVec 4) (wdata : Word)
  /-- NOP (R183): command word 0x0. -/
  | nop
  /-- HASH with V = 0 (R184): command word 0x1. -/
  | hash256
  /-- HASH with V = 1 (R184): command word 0x11. -/
  | hash512
  /-- ABORT (R185): command word 0x2. -/
  | abort
  /-- ILLEGAL (R186): any command word that is not legal. -/
  | illegal (word : Word)
  /-- STATE = IDLE (R205): the engine takes no step. -/
  | noStepIdle
  /-- STEP_PAD (R200). -/
  | stepPad
  /-- STEP_LOAD (R201). -/
  | stepLoad
  /-- STEP_EXPAND (R202). -/
  | stepExpand
  /-- STEP_ROUND (R203). -/
  | stepRound
  /-- STEP_FOLD (R204). -/
  | stepFold
  /-- STATE = DONE (R205): the engine takes no step. -/
  | noStepDone
  /-- STATE = FAULT (R205): the engine takes no step. -/
  | noStepFault
deriving DecidableEq, Repr

end Sys2Proof
end

