-- ==== Sys2Proof/WellFormed.lean ====
section
/-! DEFINITION. Which terms of Instr stand for an encoding of the spec. Every operand has the width of its
field in the opcode table, so one check is left: the ILLEGAL row applies only when no other CMD row
matches (30_encoding.md R84, R86). -/

namespace Sys2Proof

/-- An instruction term that some encoding stands for. -/
def WellFormed : Instr → Bool
  | .illegal word => !Machine.cmdLegal word
  | .rd _ => true
  | .wrCmd _ => true
  | .wrStatus _ => true
  | .wrMsgLen _ => true
  | .wrNblk _ => true
  | .wrBlkcntRsv _ _ => true
  | .wrDigest _ _ => true
  | .wrWvRsv _ _ => true
  | .nop => true
  | .hash256 => true
  | .hash512 => true
  | .abort => true
  | .noStepIdle => true
  | .stepPad => true
  | .stepLoad => true
  | .stepExpand => true
  | .stepRound => true
  | .stepFold => true
  | .noStepDone => true
  | .noStepFault => true

end Sys2Proof
end

