-- ==== Sys2Proof/Decode.lean ====
section
/-! DEFINITION. The decoder and the encoder, from 30_encoding.md R80 to R88 and spec/opcode_table.json.
`Encoded` is one of the three encoded things with its fields at their exact widths; on it decoding is
total, since no header, command word or STATE code is left undefined (R81, R86, R87). `decodeRaw` reads
the same things from a plain number and rejects, by name, a number with bits beyond the encoding. -/

namespace Sys2Proof

/-- The opcode table's three formats. -/
inductive Format where
  /-- HOST: a transaction header, then 64 bits of WDATA when WE = 1 (R80). -/
  | host
  /-- CMD: a 64-bit command word (R82). -/
  | cmd
  /-- STATE: a 3-bit STATE code (R87). -/
  | stateCode
deriving DecidableEq, Repr

/-- One encoded thing. A read carries no WDATA: for WE = 0 the data lines are not part of the
transaction and the decoder does not look at them (R80). -/
inductive Encoded where
  | host (header : BitVec 6) (wdata : Word)
  | command (word : Word)
  | stateCode (code : BitVec 3)
deriving DecidableEq, Repr

/-- WE, bit 5 of a header (R80): true for a write. -/
def headerWE (header : BitVec 6) : Bool := header.getLsbD 5

/-- RIDX, bits 4:0 of a header (R80). -/
def headerIndex (header : BitVec 6) : BitVec 5 := header.extractLsb' 0 5

/-- `header = (WE << 5) | RIDX` (R80). -/
def mkHeader (we : Bool) (ridx : BitVec 5) : BitVec 6 := BitVec.ofBool we ++ ridx

/-- The length of a transaction in bits, decided by WE alone (R80, R88). -/
def transactionBits (header : BitVec 6) : Nat := if headerWE header then 6 + 64 else 6

/-- The HOST rows of the opcode table, by their mask and match. -/
def decodeHost (header : BitVec 6) (wdata : Word) : Instr :=
  if header &&& 0x20 = 0x00 then .rd (headerIndex header)
  else if header &&& 0x3F = 0x20 then .wrCmd wdata
  else if header &&& 0x3F = 0x21 then .wrStatus wdata
  else if header &&& 0x3F = 0x22 then .wrMsgLen wdata
  else if header &&& 0x3F = 0x23 then .wrNblk wdata
  else if header &&& 0x3C = 0x24 then .wrBlkcntRsv (header.extractLsb' 0 2) wdata
  else if header &&& 0x38 = 0x28 then .wrDigest (header.extractLsb' 0 3) wdata
  else .wrWvRsv (header.extractLsb' 0 4) wdata

/-- The CMD rows: four exact words; ILLEGAL when no other row matches (R84, R86). -/
def decodeCommand (word : Word) : Instr :=
  if word = 0x0 then .nop
  else if word = 0x1 then .hash256
  else if word = 0x11 then .hash512
  else if word = 0x2 then .abort
  else .illegal word

/-- The STATE rows (R87). -/
def decodeState (code : BitVec 3) : Instr :=
  if code = 0 then .noStepIdle
  else if code = 1 then .stepPad
  else if code = 2 then .stepLoad
  else if code = 3 then .stepExpand
  else if code = 4 then .stepRound
  else if code = 5 then .stepFold
  else if code = 6 then .noStepDone
  else .noStepFault

/-- The decoder. -/
def decode : Encoded → Instr
  | .host header wdata => decodeHost header wdata
  | .command word => decodeCommand word
  | .stateCode code => decodeState code

/-- Why a number is no encoding of a format. -/
inductive DecodeError where
  /-- Bits beyond the transaction whose length WE fixes (R80, R88). -/
  | bitsBeyondTransaction
  /-- Bits beyond the 64 of a command word (R82). -/
  | bitsBeyondCommandWord
  /-- Bits beyond the 3 of a STATE code (R87). -/
  | bitsBeyondStateCode
deriving DecidableEq, Repr

/-- Decoding of a plain number, total, by the lengths of R80, R82 and R87. R80 gives the lengths only: that in
one number of a write the header stands in bits 5:0 and WDATA in bits 69:6 is the model's choice (DESIGN CHOICE,
log entry 14). -/
def decodeRaw (f : Format) (w : Nat) : Except DecodeError Instr :=
  match f with
  | .host =>
    let header := BitVec.ofNat 6 w
    if w < 2 ^ transactionBits header then .ok (decode (.host header (BitVec.ofNat 64 (w / 2 ^ 6))))
    else .error .bitsBeyondTransaction
  | .cmd =>
    if w < 2 ^ 64 then .ok (decode (.command (BitVec.ofNat 64 w))) else .error .bitsBeyondCommandWord
  | .stateCode =>
    if w < 2 ^ 3 then .ok (decode (.stateCode (BitVec.ofNat 3 w))) else .error .bitsBeyondStateCode

/-- The encoder, from the register map (R32), the headers (R80, R91), the command words (R83, R84) and
the STATE codes (R21). A read's data lines are given as zeros. -/
def encode : Instr → Encoded
  | .rd ridx => .host (mkHeader false ridx) 0
  | .wrCmd wdata => .host (mkHeader true 0) wdata
  | .wrStatus wdata => .host (mkHeader true 1) wdata
  | .wrMsgLen wdata => .host (mkHeader true 2) wdata
  | .wrNblk wdata => .host (mkHeader true 3) wdata
  | .wrBlkcntRsv low wdata => .host (mkHeader true ((1 : BitVec 3) ++ low)) wdata
  | .wrDigest k wdata => .host (mkHeader true ((1 : BitVec 2) ++ k)) wdata
  | .wrWvRsv low wdata => .host (mkHeader true ((1 : BitVec 1) ++ low)) wdata
  | .nop => .command (Machine.cmdWord 0 false 0x0)
  | .hash256 => .command (Machine.cmdWord 0 false 0x1)
  | .hash512 => .command (Machine.cmdWord 0 true 0x1)
  | .abort => .command (Machine.cmdWord 0 false 0x2)
  | .illegal word => .command word
  | .noStepIdle => .stateCode 0
  | .stepPad => .stateCode 1
  | .stepLoad => .stateCode 2
  | .stepExpand => .stateCode 3
  | .stepRound => .stateCode 4
  | .stepFold => .stateCode 5
  | .noStepDone => .stateCode 6
  | .noStepFault => .stateCode 7

/-- An encoded thing as format and number: for a write, `{WDATA, header}`, the order being the model's choice
(log entry 14). -/
def rawOf : Encoded → Format × Nat
  | .host header wdata =>
    (.host, header.toNat + if headerWE header then wdata.toNat * 2 ^ 6 else 0)
  | .command word => (.cmd, word.toNat)
  | .stateCode code => (.stateCode, code.toNat)

/-- The encoded thing that the opcode table's numbering gives for `nbits` bits `w`. The table gives 3 bits
to a STATE row, 6 to a HOST row and 64 to a CMD row; in whole bytes STATE and HOST rows both have 8, and
there the codes 0 to 7 are read as STATE codes, the larger ones as headers (log entry 3). A header's
WDATA has no bits in the table and is zero. -/
def tableEncoded (nbits w : Nat) : Option Encoded :=
  if nbits = 64 ∧ w < 2 ^ 64 then some (.command (BitVec.ofNat 64 w))
  else if (nbits = 3 ∨ nbits = 8) ∧ w < 8 then some (.stateCode (BitVec.ofNat 3 w))
  else if (nbits = 6 ∨ nbits = 8) ∧ w < 64 then some (.host (BitVec.ofNat 6 w) 0)
  else none

/-- The instruction the decoder reads from a word of the opcode table. -/
def decodeTableWord (nbits w : Nat) : Option Instr := (tableEncoded nbits w).map decode

end Sys2Proof
end

