-- ==== Sys2Proof/Machine/Params.lean ====
section
/-! DEFINITION. The per-variant constants of 00_scope.md R3 and the storage convention of 10_state.md R22:
a W-bit word lies zero-extended in a 64-bit register. -/

namespace Sys2Proof.Machine

/-- W, the word width in bits (R3). -/
abbrev width : Variant → Nat
  | .v32 => 32
  | .v64 => 64

/-- ws = W/8, the word size in bytes (R3). -/
def wordBytes : Variant → Nat
  | .v32 => 4
  | .v64 => 8

/-- N, the rounds per block and the length of the schedule (R3). -/
def rounds : Variant → Nat
  | .v32 => 64
  | .v64 => 80

/-- B, the block size in bytes (R3). -/
def blockBytes : Variant → Nat
  | .v32 => 64
  | .v64 => 128

/-- F, the size of the length field in bytes (R3). -/
def lengthBytes : Variant → Nat
  | .v32 => 8
  | .v64 => 16

/-- The W bits that a step of variant `v` reads of a 64-bit register: bits 31:0 under V32, all under V64
(R22). -/
def lowWord (v : Variant) (x : Word) : BitVec (width v) := x.setWidth (width v)

/-- `zext_64` (R9): a W-bit value in a 64-bit register, zeros above. -/
def zext64 {w : Nat} (x : BitVec w) : Word := x.setWidth 64

/-- The VAR bit of a variant (R20): 0 = V32, 1 = V64. -/
def varBit : Variant → Bool
  | .v32 => false
  | .v64 => true

/-- The variant that a command's V bit selects (R82, R184). -/
def variantOf : Bool → Variant
  | false => .v32
  | true => .v64

end Sys2Proof.Machine
end

