-- ==== Sys2Proof/Config.lean ====
section
/-! DEFINITION. What a build of the engine fixes (00_scope.md R7, 93_implementation_defined.md section 3)
and the free values of the model: opaque constants without a body, of which nothing can be proved. -/

namespace Sys2Proof

/-- EMPTY_POLICY (R7, D7): what an accepted HASH does on an empty message (R184). -/
inductive EmptyPolicy where
  /-- The empty message is padded and hashed like any other. -/
  | standard
  /-- An accepted HASH of the empty message ends at once with NO_DIGEST = 1. -/
  | legacy
deriving DecidableEq, Repr

/-- The build parameters a rule of the spec depends on. The machine carries them as a constant:
no step and no reset changes them (R252). Log entry 2. -/
structure Config where
  emptyPolicy : EmptyPolicy
deriving DecidableEq, Repr

/-- The default build (R7): EMPTY_POLICY = STANDARD. -/
def Config.default : Config where
  emptyPolicy := .standard

/-- Free value: which of the admissible bytes a read of a message address returns when another agent
wrote that address during the hash (R71 (b), U3). The index is reduced modulo the number of admissible
bytes. DESIGN CHOICE, safe (log entry 5). -/
opaque Config.drawIndex : Nat → Nat

/-- Free value: what a host read returns while reset is held (R250, U4).
DESIGN CHOICE, safe (log entry 6). -/
opaque Config.heldRead : Nat → Word

/-- Free value: what an EXPAND or ROUND step computes when T lies outside the range in which rules R202
and R203 take that step. No run from reset reaches it. DESIGN CHOICE, safe (log entry 7). -/
opaque Config.outOfRangeWord : Nat → Word

/-- DEVICE_BASE (R7, D4): OPEN; no rule depends on it. -/
opaque Config.deviceBase : Nat

/-- MSG_BASE (R7, D8): OPEN; the engine never sees it. -/
opaque Config.msgBase : Nat

/-- CYCLES_PER_STEP less one (R7, D25): OPEN; no rule depends on it. -/
opaque Config.extraCyclesPerStep : Nat

/-- CYCLES_PER_STEP (R265): at least 1 by its form. -/
def Config.cyclesPerStep : Nat := Config.extraCyclesPerStep + 1

/-- RESET_POLARITY (R7, D13): OPEN, active-high when true; no rule depends on it. -/
opaque Config.resetActiveHigh : Bool

/-- RESET_SYNC (R7, D13): OPEN, synchronous when true; no rule depends on it. -/
opaque Config.resetSynchronous : Bool

/-- Where a platform that maps the port into a byte-addressed bus finds register `idx`: byte offset
8 × index from DEVICE_BASE (R32, R67). The engine itself sees only the index. -/
def Config.registerAddress (idx : BitVec 5) : Nat := Config.deviceBase + 8 * idx.toNat

/-- Where the platform holds message byte `j`: MSG_BASE + j (R60, R76). The engine itself sees only j. -/
def Config.messageAddress (j : Nat) : Nat := Config.msgBase + j

end Sys2Proof
end

