-- ==== Sys2Proof/Machine/State.lean ====
section
/-! DEFINITION. The machine's state: every element of 10_state.md R20, the message memory (20_memory.md
R60), the host's program and the interleaving (00_scope.md R4), and a few fields of the model's own. -/

namespace Sys2Proof.Machine

/-- The states of the driver FSM (R21). -/
inductive FsmState where
  | idle
  | pad
  | load
  | expand
  | round
  | fold
  | done
  | fault
deriving DecidableEq, Repr

/-- The message memory (R60): (address, byte) pairs, addresses strictly rising, no entry equal to what an
unlisted address reads as (`Memory.wf`). -/
abbrev Memory := List Host.Cell

/-- What the host still has to issue, one entry each (R4, R89). -/
inductive HostOp where
  /-- One host-port transaction (R80): the header and, for a write, WDATA. -/
  | transaction (header : BitVec 6) (wdata : Word)
  /-- A write to CMD given by its command word, the assembler's pseudo-instruction form (R90). -/
  | command (word : Word)
  /-- The host's statement `poll REG, MASK, VALUE` (R89): reads REG until the masked value matches. -/
  | poll (reg : BitVec 5) (mask value : Word)
deriving DecidableEq, Repr

/-- Who moves next (R4). The list of them in State is the interleaving of the agents. Log entry 1. -/
inductive Turn where
  /-- The engine: one driver-FSM step (R4). -/
  | engine
  /-- The host: one transaction, the next of its program (R4). -/
  | host
  /-- Another agent's write of one byte of the message memory (R69, R71). -/
  | platformWrite (addr : Word) (byte : Byte)
  /-- The reset input becomes active (R250). -/
  | resetOn
  /-- The reset input is released (R250). -/
  | resetOff
deriving DecidableEq, Repr

/-- The whole machine. -/
structure State where
  /-- STATE, 3 bits (R21). -/
  state : FsmState
  /-- H[0..7], the chaining value (R23). -/
  h : Vector Word 8
  /-- V[0..7], the working variables a..h (R24). -/
  v : Vector Word 8
  /-- MSG_LEN (R25). -/
  msgLen : Word
  /-- Ws[0..79], the message schedule (R26). -/
  ws : Vector Word 80
  /-- T (R27). -/
  t : BitVec 7
  /-- BLK (R28). -/
  blk : Word
  /-- NB (R29). -/
  nb : Word
  /-- VAR (R30). -/
  var : Variant
  /-- NO_DIGEST (R30). -/
  noDigest : Bool
  /-- ERR_CMD (R30). -/
  errCmd : Bool
  /-- ERR_BUSY (R30). -/
  errBusy : Bool
  /-- ERR_INV (R30). -/
  errInv : Bool
  /-- The message memory: an input the engine only reads (R44, R60). -/
  mem : Memory
  /-- The reset input is held active (R250). -/
  resetHeld : Bool
  /-- The host's program: what it still has to issue (R89, R210). -/
  program : List HostOp
  /-- The interleaving still to come: who moves next (R4). When it is empty a fair rule says who (`nextTurn`). -/
  turns : List Turn
  /-- RDATA of the last host read (R80, R181): the port's output, no element of R20. -/
  rdata : Word
  /-- Bytes that another agent overwrote, at addresses below MSG_LEN, since the accepted HASH and while
  busy: with the byte now held they are what a read of that address may return (R71 (b)). -/
  stale : List Host.Cell
  /-- The message addresses read since the last accepted HASH, in order (R62, D26). -/
  msgReads : List Nat
  /-- The model's own counter from which the free values are drawn. -/
  fresh : Nat
  /-- The build (R7, R44); constant. -/
  cfg : Config
deriving DecidableEq, Repr

/-- Why the machine stops with a fault. The spec gives the engine no trap (R220: every error condition is a
STATUS flag, and its FAULT state is a value of STATE), a message read has no error response (R61), and
every encoding is defined: no meaning faults, so there is no constructor. -/
inductive Fault where
deriving DecidableEq, Repr

/-- Why an instruction is refused. -/
inductive Refusal where
  /-- Raised by an arm of exec whose instruction has no meaning yet (none at present). Safe: it stops the
  machine where the hardware goes on. -/
  | notModelled (mnemonic : String)
deriving DecidableEq, Repr

/-- The machine right after reset (R45, R250): every element of R20 is zero and STATE is IDLE. The fields
outside R20 are at the values log entries 1, 2, 4, 8 and 10 name: nothing listed, nothing pending. -/
def State.reset : State where
  state := .idle
  h := Vector.replicate 8 0
  v := Vector.replicate 8 0
  msgLen := 0
  ws := Vector.replicate 80 0
  t := 0
  blk := 0
  nb := 0
  var := .v32
  noDigest := false
  errCmd := false
  errBusy := false
  errInv := false
  mem := []
  resetHeld := false
  program := []
  turns := []
  rdata := 0
  stale := []
  msgReads := []
  fresh := 0
  cfg := Config.default

end Sys2Proof.Machine
end

