-- ==== Sys2Proof/Machine/Flags.lean ====
section
/-! DEFINITION. STATE codes, the busy condition, the composition of STATUS (10_state.md R21, R31) and the
setting of the error flags (R30, 60_exceptions.md R220 to R222). -/

namespace Sys2Proof.Machine

/-- The STATE code of an FSM state (R21). -/
def FsmState.code : FsmState → BitVec 3
  | .idle => 0
  | .pad => 1
  | .load => 2
  | .expand => 3
  | .round => 4
  | .fold => 5
  | .done => 6
  | .fault => 7

/-- The FSM state of a STATE code: all eight codes are defined (R21, R87). -/
def FsmState.ofCode (c : BitVec 3) : FsmState :=
  if c = 0 then .idle
  else if c = 1 then .pad
  else if c = 2 then .load
  else if c = 3 then .expand
  else if c = 4 then .round
  else if c = 5 then .fold
  else if c = 6 then .done
  else .fault

/-- Busy: STATE is one of PAD, LOAD, EXPAND, ROUND or FOLD (R21). -/
def FsmState.busy : FsmState → Bool
  | .idle => false
  | .pad => true
  | .load => true
  | .expand => true
  | .round => true
  | .fold => true
  | .done => false
  | .fault => false

/-- The engine has an enabled step exactly in the busy states (R4, R21). -/
def State.busy (s : State) : Bool := s.state.busy

/-- A one-bit STATUS field at bit `n` (R31). -/
def flagAt (b : Bool) (n : Nat) : Word := (BitVec.ofBool b).setWidth 64 <<< n

/-- STATUS, composed from the state at each read (R31). -/
def statusWord (s : State) : Word :=
  flagAt s.busy 0 ||| flagAt (s.state == .done) 1 ||| flagAt s.noDigest 2 ||| flagAt (varBit s.var) 3 |||
  flagAt s.errCmd 4 ||| flagAt s.errBusy 5 ||| flagAt s.errInv 6 |||
  s.state.code.setWidth 64 <<< 8 ||| s.t.setWidth 64 <<< 12

/-- ERR_CMD <- 1, and nothing else (R221). -/
def State.signalErrCmd (s : State) : State := { s with errCmd := true }

/-- ERR_BUSY <- 1, and nothing else (R222). -/
def State.signalErrBusy (s : State) : State := { s with errBusy := true }

end Sys2Proof.Machine
end

