-- ==== Sys2Proof/Machine/Operands.lean ====
section
/-! DEFINITION. The host register port (10_state.md R32 to R38): what reading each index gives, and the
names of the indices (30_encoding.md R91). -/

namespace Sys2Proof.Machine

/-- Index of CMD (R32). -/
abbrev regCmd : BitVec 5 := 0
/-- Index of STATUS (R32). -/
abbrev regStatus : BitVec 5 := 1
/-- Index of MSG_LEN (R32). -/
abbrev regMsgLen : BitVec 5 := 2
/-- Index of NBLK (R32). -/
abbrev regNblk : BitVec 5 := 3
/-- Index of BLKCNT (R32). -/
abbrev regBlkcnt : BitVec 5 := 4
/-- Index of DIGESTk: 8 + k (R32). -/
def regDigest (k : BitVec 3) : BitVec 5 := (1 : BitVec 2) ++ k
/-- Index of WV_A..WV_H: 16 + k (R32). -/
def regWv (k : BitVec 3) : BitVec 5 := (2 : BitVec 2) ++ k

/-- The value that reading register `idx` gives (R32): 0 for CMD and for the reserved indices. -/
def regValue (s : State) (idx : BitVec 5) : Word :=
  if idx = regStatus then statusWord s
  else if idx = regMsgLen then s.msgLen
  else if idx = regNblk then s.nb
  else if idx = regBlkcnt then s.blk
  else if idx.extractLsb' 3 2 = 1 then s.h[(idx.extractLsb' 0 3).toNat]
  else if idx.extractLsb' 3 2 = 2 then s.v[(idx.extractLsb' 0 3).toNat]
  else 0

/-- Byte n of the serialized digest (R66), 0 ≤ n < 8 · ws: a function of the DIGEST registers that the host
computes. -/
def digestByte (s : State) (n : Nat) : Byte :=
  (regValue s (regDigest (BitVec.ofNat 3 (n / wordBytes s.var))) >>>
    (8 * (wordBytes s.var - 1 - n % wordBytes s.var))).setWidth 8

/-- DIGEST0..7 are the digest of the last hash: DONE = 1 and NO_DIGEST = 0 (R36, R262). -/
def digestValid (s : State) : Bool := s.state == .done && !s.noDigest

/-- What the source's call `hash(msg)` with variant `v` returns, read off a state in which a hash of that variant
has ended in DONE (R209): `none` exactly when NO_DIGEST = 1, else the low W bits of DIGEST0..DIGEST7. -/
def hashResult (v : Variant) (s : State) : Option (Vector (BitVec (width v)) 8) :=
  if s.noDigest then none
  else some (Vector.ofFn fun k => lowWord v (regValue s (regDigest (BitVec.ofNat 3 k.val))))

/-- `sha256_hash(msg)` (R209). -/
def sha256Result (s : State) : Option (Vector (BitVec 32) 8) := hashResult .v32 s

/-- `sha512_hash(msg)` (R209). -/
def sha512Result (s : State) : Option (Vector (BitVec 64) 8) := hashResult .v64 s

end Sys2Proof.Machine
end

