-- ==== Sys2Proof/Machine/Padding.lean ====
section
/-! DEFINITION. The padding encoder of 41_padding.md: the block count, the bytes of the padded message and
the native words of a block, as functions of the length L, the variant and the message's bytes. Positions
and counts are exact naturals (R11, R125). The padded message is never stored. -/

namespace Sys2Proof.Machine

/-- NB = (L + F + B) div B (R122). -/
def numBlocks (v : Variant) (len : Nat) : Nat := (len + lengthBytes v + blockBytes v) / blockBytes v

/-- P = NB · B, the padded length in bytes (R121). -/
def paddedBytes (v : Variant) (len : Nat) : Nat := numBlocks v len * blockBytes v

/-- BL = (8 · L) mod 2^(8F), the value of the length field (R124). -/
def bitLength (v : Variant) (len : Nat) : Nat := 8 * len % 2 ^ (8 * lengthBytes v)

/-- PB(j), byte j of the padded message (R121); `msg` gives the message's bytes and is used below L only. R121
gives PB for j < P only: that it is the low byte of BL from P on is the model's choice (DESIGN CHOICE, log entry
15), met only by a LOAD with BLK ≥ NB, which no run reaches. -/
def padByte (v : Variant) (len : Nat) (msg : Nat → Byte) (j : Nat) : Byte :=
  if j < len then msg j
  else if j = len then 0x80
  else if j < paddedBytes v len - lengthBytes v then 0x00
  else BitVec.ofNat 8
    (bitLength v len >>> (8 * (lengthBytes v - 1 - (j - (paddedBytes v len - lengthBytes v)))))

/-- word_k of the block at padded position `p`: the big-endian sum of R63 over `pb`, the padded bytes. -/
def nativeWord (v : Variant) (pb : Nat → Byte) (p k : Nat) : BitVec (width v) :=
  (List.range (wordBytes v)).foldl
    (fun acc b => acc + ((pb (p + wordBytes v * k + b)).setWidth (width v) <<< (8 * (wordBytes v - 1 - b)))) 0

/-- Native word k of block i (R63, R128, R143). -/
def blockWord (v : Variant) (len : Nat) (msg : Nat → Byte) (i k : Nat) : BitVec (width v) :=
  nativeWord v (padByte v len msg) (i * blockBytes v) k

/-- The padded length in bits is a whole number of blocks (R127): what the PAD step asserts (R200). -/
def blockAligned (v : Variant) (blocks : Nat) : Bool := 8 * blocks * blockBytes v % (8 * blockBytes v) == 0

/-- Z = P − F − L − 1, the number of 0x00 padding bytes (R123). -/
def zeroPadBytes (v : Variant) (len : Nat) : Nat := paddedBytes v len - lengthBytes v - len - 1

/-- The message addresses that loading block i reads: those of its positions at which PB takes a message
byte, in ascending order (R62, R121). -/
def blockReads (v : Variant) (len i : Nat) : List Nat :=
  ((List.range (blockBytes v)).map (i * blockBytes v + ·)).filter (· < len)

end Sys2Proof.Machine
end

