-- ==== Sys2Proof/Machine/Ops.lean ====
section
/-! DEFINITION. The shared operations: the message memory, the message read port, the start and the abort
of a hash, entering and leaving FAULT, reset, and another agent's memory write. -/

namespace Sys2Proof.Machine

/-! ### The message memory -/

/-- What an address the list does not name reads as: 0x00. The spec gives the memory's contents before
anything is written no value, and the read port has no error response (R61). DESIGN CHOICE, unsafe (log
entry 4). -/
def unlistedByte : Byte := 0x00

/-- The byte at address `a`. -/
def Memory.read (m : Memory) (a : Nat) : Byte :=
  match m with
  | [] => unlistedByte
  | c :: rest => if c.1 = a then c.2 else Memory.read rest a

/-- The canonical form: addresses strictly rising and below 2^64, no entry equal to `unlistedByte`. -/
def Memory.wf (m : Memory) : Bool :=
  match m with
  | [] => true
  | c :: rest =>
    decide (c.1 < 2 ^ 64) && c.2 != unlistedByte && (rest.head?.all fun d => decide (c.1 < d.1)) && Memory.wf rest

/-- A cell for (a, b), or none when an unlisted address reads the same. -/
def Memory.cell (a : Nat) (b : Byte) : Memory := if b = unlistedByte then [] else [(a, b)]

/-- Write byte `b` at address `a`, keeping the canonical form. -/
def Memory.write (m : Memory) (a : Nat) (b : Byte) : Memory :=
  match m with
  | [] => Memory.cell a b
  | c :: rest =>
    if a < c.1 then Memory.cell a b ++ c :: rest
    else if a = c.1 then Memory.cell a b ++ rest
    else c :: Memory.write rest a b

/-! ### The message read port -/

/-- The bytes another agent overwrote at address `j` during the hash (R71 (b)). -/
def staleAt (s : State) (j : Nat) : List Byte := (s.stale.filter (·.1 == j)).map (·.2)

/-- `MemRead(j, 1)` (R61), performed with the free value of index `n`. Where no agent has written address
`j` during the hash it is the byte held (R71 (a)); where one has, it is a draw from the bytes written and
the old byte (R71 (b)). -/
def memRead (s : State) (n j : Nat) : Byte :=
  match staleAt s j with
  | [] => Memory.read s.mem j
  | old :: more =>
    (Memory.read s.mem j :: old :: more).getD (Config.drawIndex n % (more.length + 2)) (Memory.read s.mem j)

/-- L = MSG_LEN as a natural number (R12). -/
def State.len (s : State) : Nat := s.msgLen.toNat

/-- PB(j) of the machine (R121): its message bytes are read from the message memory. Each position has a
free value of its own. -/
def machinePadByte (s : State) (j : Nat) : Byte :=
  padByte s.var s.len (fun j => memRead s (s.fresh + (j - s.blk.toNat * blockBytes s.var)) j) j

/-! ### The hash: start, abort, fault, reset -/

/-- HASH with V bit `v` (R184). An accepted HASH also begins the record of message reads and of racing
writes anew (the model's own fields). -/
def State.startHash (s : State) (v : Variant) : State :=
  if s.busy || s.state == .fault then s.signalErrBusy
  else
    let s' : State := { s with
      var := v, errCmd := false, errBusy := false, t := 0, blk := 0, nb := 0, stale := [], msgReads := [] }
    if s.msgLen = 0 ∧ s.cfg.emptyPolicy = .legacy then
      { s' with h := Vector.replicate 8 0, noDigest := true, state := .done }
    else
      { s' with noDigest := false, state := .pad }

/-- ABORT (R185): the return to IDLE from every state, and the only way out of FAULT but reset (R228). -/
def State.abortHash (s : State) : State :=
  { s with state := .idle, t := 0, noDigest := false, errCmd := false, errBusy := false, errInv := false }

/-- Entering FAULT, the counterpart of taking an exception (R227): NB, ERR_INV and STATE are written, and
nothing else. No pc, status or address is saved anywhere (R220). -/
def State.enterFault (s : State) (blocks : Nat) : State :=
  { s with nb := BitVec.ofNat 64 blocks, errInv := true, state := .fault }

/-- Execution of a command word written to CMD (R180, R226): legality first, then the operation. -/
def State.runCommand (s : State) (c : Word) : State :=
  if !cmdLegal c then s.signalErrCmd
  else if cmdOp c = 0x0 then s
  else if cmdOp c = 0x1 then s.startHash (variantOf (cmdV c))
  else s.abortHash

/-- The reset event (R45, R250): every element of R20 to its reset value, with the reset input held. The
message memory is not touched. -/
def State.assertReset (s : State) : State :=
  { s with
    state := .idle, h := Vector.replicate 8 0, v := Vector.replicate 8 0, msgLen := 0
    ws := Vector.replicate 80 0, t := 0, blk := 0, nb := 0, var := .v32
    noDigest := false, errCmd := false, errBusy := false, errInv := false, resetHeld := true }

/-- The reset input is released. -/
def State.releaseReset (s : State) : State := { s with resetHeld := false }

/-! ### The platform -/

/-- Another agent writes byte `b` at message address `a`. While a hash runs and `a` lies below MSG_LEN the
overwritten byte stays a possible result of reading `a` (R71 (b), R261); otherwise the write is simply
visible to every later hash (R72). -/
def State.platformWrite (s : State) (a : Word) (b : Byte) : State :=
  { s with
    mem := Memory.write s.mem a.toNat b
    stale := if s.busy && decide (a.toNat < s.len) then (a.toNat, Memory.read s.mem a.toNat) :: s.stale
      else s.stale }

end Sys2Proof.Machine
end

