-- ==== Sys2Proof/Machine/Command.lean ====
section
/-! DEFINITION. The command words: the CMD rows of the opcode table (44_driver.md R183 to R186). -/

namespace Sys2Proof.Machine

/-- NOP (R183): nothing changes; no flag is cleared. -/
def execNop (s : State) : Host.Outcome State Fault Refusal := .next s

/-- HASH, V32 (R184). -/
def execHash256 (s : State) : Host.Outcome State Fault Refusal := .next (s.startHash .v32)

/-- HASH, V64 (R184). -/
def execHash512 (s : State) : Host.Outcome State Fault Refusal := .next (s.startHash .v64)

/-- ABORT (R185). -/
def execAbort (s : State) : Host.Outcome State Fault Refusal := .next s.abortHash

/-- ILLEGAL (R186): ERR_CMD <- 1 in every STATE; nothing else changes. -/
def execIllegal (_word : Word) (s : State) : Host.Outcome State Fault Refusal := .next s.signalErrCmd

end Sys2Proof.Machine
end

