-- ==== Sys2Proof/Machine/Arith.lean ====
section
/-! DEFINITION. The word arithmetic primitives of 40_word_arithmetic.md, on words of W bits. Addition and
the bitwise operations are those of `BitVec W`: `+` is modulo 2^W (R103), `&&&`, `^^^` and `~~~` act
within W bits (R104). Rotations and shifts take only an amount n with 0 < n < W: others are refused by
the type (R101, U1, U2, D35). -/

namespace Sys2Proof.Machine

/-- A rotation or shift amount of W-bit words: 0 < n < W (R101, R102). -/
abbrev Amount (w : Nat) := { n : Nat // 0 < n ∧ n < w }

/-- ROTR_W(n, x) = (x >> n) | ((x << (W − n)) mod 2^W) (R101). -/
def rotr {w : Nat} (n : Amount w) (x : BitVec w) : BitVec w := (x >>> n.val) ||| (x <<< (w - n.val))

/-- SHR_W(n, x) = x >> n, zeros entering at the top (R102). -/
def shr {w : Nat} (n : Amount w) (x : BitVec w) : BitVec w := x >>> n.val

/-- The three amounts of a sigma function, in the order of R105's table. -/
structure SigmaAmounts (w : Nat) where
  first : Amount w
  second : Amount w
  third : Amount w
deriving DecidableEq, Repr

/-- The amounts of ssig0: ROTR, ROTR, SHR (R105). -/
def ssig0Amounts : (v : Variant) → SigmaAmounts (width v)
  | .v32 => ⟨⟨7, by decide⟩, ⟨18, by decide⟩, ⟨3, by decide⟩⟩
  | .v64 => ⟨⟨1, by decide⟩, ⟨8, by decide⟩, ⟨7, by decide⟩⟩

/-- The amounts of ssig1: ROTR, ROTR, SHR (R105). -/
def ssig1Amounts : (v : Variant) → SigmaAmounts (width v)
  | .v32 => ⟨⟨17, by decide⟩, ⟨19, by decide⟩, ⟨10, by decide⟩⟩
  | .v64 => ⟨⟨19, by decide⟩, ⟨61, by decide⟩, ⟨6, by decide⟩⟩

/-- The amounts of BSIG0: ROTR, ROTR, ROTR (R105). -/
def bsig0Amounts : (v : Variant) → SigmaAmounts (width v)
  | .v32 => ⟨⟨2, by decide⟩, ⟨13, by decide⟩, ⟨22, by decide⟩⟩
  | .v64 => ⟨⟨28, by decide⟩, ⟨34, by decide⟩, ⟨39, by decide⟩⟩

/-- The amounts of BSIG1: ROTR, ROTR, ROTR (R105). -/
def bsig1Amounts : (v : Variant) → SigmaAmounts (width v)
  | .v32 => ⟨⟨6, by decide⟩, ⟨11, by decide⟩, ⟨25, by decide⟩⟩
  | .v64 => ⟨⟨14, by decide⟩, ⟨18, by decide⟩, ⟨41, by decide⟩⟩

/-- ROTR ^ ROTR ^ SHR, the form of the small sigmas (R141, R142). -/
def smallSigma {w : Nat} (a : SigmaAmounts w) (x : BitVec w) : BitVec w :=
  rotr a.first x ^^^ rotr a.second x ^^^ shr a.third x

/-- ROTR ^ ROTR ^ ROTR, the form of the big sigmas (R162, R163). -/
def bigSigma {w : Nat} (a : SigmaAmounts w) (x : BitVec w) : BitVec w :=
  rotr a.first x ^^^ rotr a.second x ^^^ rotr a.third x

/-- ssig0 (R141). -/
def ssig0 (v : Variant) (x : BitVec (width v)) : BitVec (width v) := smallSigma (ssig0Amounts v) x

/-- ssig1 (R142). -/
def ssig1 (v : Variant) (x : BitVec (width v)) : BitVec (width v) := smallSigma (ssig1Amounts v) x

/-- BSIG0 (R162). -/
def bsig0 (v : Variant) (x : BitVec (width v)) : BitVec (width v) := bigSigma (bsig0Amounts v) x

/-- BSIG1 (R163). -/
def bsig1 (v : Variant) (x : BitVec (width v)) : BitVec (width v) := bigSigma (bsig1Amounts v) x

/-- Ch(x, y, z) = (x & y) ^ ((~x) & z) (R161). -/
def ch {w : Nat} (x y z : BitVec w) : BitVec w := (x &&& y) ^^^ (~~~x &&& z)

/-- Maj(x, y, z) = (x & y) ^ (x & z) ^ (y & z) (R164). -/
def maj {w : Nat} (x y z : BitVec w) : BitVec w := (x &&& y) ^^^ (x &&& z) ^^^ (y &&& z)

end Sys2Proof.Machine
end

