-- ==== Sys2Proof/Machine/Compress.lean ====
section
/-! DEFINITION. The schedule recurrence (42_schedule.md), the round and the compression of a block
(43_compression.md) as functions on W-bit words, and the digest they make of a message. The FSM steps
(Machine/Engine.lean) use `schedWord` and `roundWords`; `schedule`, `compress` and `digest` are what the
spec says the steps add up to. -/

namespace Sys2Proof.Machine

/-- S[t] from S[t−2], S[t−7], S[t−15] and S[t−16] (R144). -/
def schedWord (v : Variant) (w2 w7 w15 w16 : BitVec (width v)) : BitVec (width v) :=
  ssig1 v w2 + w7 + ssig0 v w15 + w16

/-- ROUND_t on (a, …, h), given K[t] and S[t] (R166). -/
def roundWords (v : Variant) (x : Vector (BitVec (width v)) 8) (k s : BitVec (width v)) :
    Vector (BitVec (width v)) 8 :=
  let t1 := x[7] + bsig1 v x[4] + ch x[4] x[5] x[6] + k + s
  let t2 := bsig0 v x[0] + maj x[0] x[1] x[2]
  #v[t1 + t2, x[0], x[1], x[2], x[3] + t1, x[4], x[5], x[6]]

/-- The schedule with one more entry, of index `s.length` (R144). -/
def extendSchedule (v : Variant) (s : List (BitVec (width v))) : List (BitVec (width v)) :=
  s ++ [schedWord v (s.getD (s.length - 2) 0) (s.getD (s.length - 7) 0)
    (s.getD (s.length - 15) 0) (s.getD (s.length - 16) 0)]

/-- The first 16 + n entries of a block's schedule (R140, R143 to R145). -/
def schedulePrefix (v : Variant) (block : List (BitVec (width v))) : Nat → List (BitVec (width v))
  | 0 => block
  | n + 1 => extendSchedule v (schedulePrefix v block n)

/-- S[0..N−1], the schedule of a block of 16 words (R140). -/
def schedule (v : Variant) (block : List (BitVec (width v))) : List (BitVec (width v)) :=
  schedulePrefix v block (rounds v - 16)

/-- The working variables after rounds 0 to n − 1 (R160, R167). -/
def roundsDone (v : Variant) (s : List (BitVec (width v))) (x : Vector (BitVec (width v)) 8) :
    Nat → Vector (BitVec (width v)) 8
  | 0 => x
  | n + 1 =>
    if hn : n < rounds v then roundWords v (roundsDone v s x n) (kConst v n hn) (s.getD n 0)
    else roundsDone v s x n

/-- The element-wise wrapping sum of FOLD (R168). -/
def addWords {w : Nat} (x y : Vector (BitVec w) 8) : Vector (BitVec w) 8 := Vector.ofFn fun k => x[k] + y[k]

/-- compress(H, S) (R160). -/
def compress (v : Variant) (h : Vector (BitVec (width v)) 8) (s : List (BitVec (width v))) :
    Vector (BitVec (width v)) 8 :=
  addWords h (roundsDone v s h (rounds v))

/-- The 16 native words of block i (R143). -/
def blockWords (v : Variant) (len : Nat) (msg : Nat → Byte) (i : Nat) : List (BitVec (width v)) :=
  (List.range 16).map (blockWord v len msg i)

/-- The chaining value after blocks 0 to n − 1 (R169, R208). -/
def chaining (v : Variant) (len : Nat) (msg : Nat → Byte) : Nat → Vector (BitVec (width v)) 8
  | 0 => iv v
  | n + 1 => compress v (chaining v len msg n) (schedule v (blockWords v len msg n))

/-- The eight digest words of a message (R208): the fold of `compress` over its blocks, from IV. -/
def digest (v : Variant) (len : Nat) (msg : Nat → Byte) : Vector (BitVec (width v)) 8 :=
  chaining v len msg (numBlocks v len)

end Sys2Proof.Machine
end

