-- ==== Sys2Proof/Machine/Engine.lean ====
section
/-! DEFINITION. The steps of the driver FSM: the STATE rows of the opcode table (44_driver.md R200 to R205).
Every right-hand side reads the state before the step (R11). -/

namespace Sys2Proof.Machine

/-- No engine step in IDLE, DONE or FAULT: the engine stays as it is (R205). -/
def noStep (s : State) : Host.Outcome State Fault Refusal := .next s

/-- STATE = IDLE (R205). -/
def execNoStepIdle (s : State) : Host.Outcome State Fault Refusal := noStep s

/-- The PAD step with block count `blocks` (R200): NB is written, then the padded length is checked. -/
def padWith (s : State) (blocks : Nat) : State :=
  if blockAligned s.var blocks then
    { s with
      nb := BitVec.ofNat 64 blocks
      h := Vector.ofFn fun k => zext64 (iv s.var)[k]
      state := .load }
  else s.enterFault blocks

/-- STEP_PAD (R200). -/
def execStepPad (s : State) : Host.Outcome State Fault Refusal := .next (padWith s (numBlocks s.var s.len))

/-- Native word k of block BLK, read through the message port (R63, R201). -/
def loadWord (s : State) (k : Nat) : Word :=
  zext64 (nativeWord s.var (machinePadByte s) (s.blk.toNat * blockBytes s.var) k)

/-- STEP_LOAD (R201). V takes the bits of H that a step of the variant reads (R22, log entry 9). -/
def execStepLoad (s : State) : Host.Outcome State Fault Refusal :=
  .next { s with
    ws := Vector.ofFn fun k => if k.val < 16 then loadWord s k.val else s.ws[k]
    v := Vector.ofFn fun k => zext64 (lowWord s.var s.h[k])
    t := 16
    state := .expand
    msgReads := s.msgReads ++ blockReads s.var s.len s.blk.toNat
    fresh := s.fresh + blockBytes s.var }

/-- The entry Ws[i], i < 80, as a W-bit word (R22). -/
def schedEntry (s : State) (i : Nat) (hi : i < 80) : BitVec (width s.var) := lowWord s.var s.ws[i]

/-- T is an index at which the spec takes the EXPAND step: 16 ≤ T ≤ N − 1 (R202). -/
def State.expandIndexOk (s : State) : Bool := decide (16 ≤ s.t.toNat) && decide (s.t.toNat < rounds s.var)

/-- T is an index at which the spec takes the ROUND step: 0 ≤ T ≤ N − 1 (R203). -/
def State.roundIndexOk (s : State) : Bool := decide (s.t.toNat < rounds s.var)

theorem rounds_le (v : Variant) : rounds v ≤ 80 := by cases v <;> decide

/-- The word that EXPAND computes (R144, R202); outside the range of T a free value (log entry 7). -/
def expandWord (s : State) : BitVec (width s.var) :=
  if h : 16 ≤ s.t.toNat ∧ s.t.toNat < rounds s.var then
    have hn := rounds_le s.var
    schedWord s.var
      (schedEntry s (s.t.toNat - 2) (by omega)) (schedEntry s (s.t.toNat - 7) (by omega))
      (schedEntry s (s.t.toNat - 15) (by omega)) (schedEntry s (s.t.toNat - 16) (by omega))
  else lowWord s.var (Config.outOfRangeWord s.fresh)

/-- T and STATE after EXPAND or ROUND: T + 1, or at T = N − 1 zero and the next phase (R202, R203). -/
def State.advance (s : State) (next : FsmState) : State :=
  if s.t.toNat = rounds s.var - 1 then { s with t := 0, state := next } else { s with t := s.t + 1 }

/-- STEP_EXPAND (R202). -/
def execStepExpand (s : State) : Host.Outcome State Fault Refusal :=
  .next (State.advance { s with
    ws := s.ws.setIfInBounds s.t.toNat (zext64 (expandWord s))
    fresh := if s.expandIndexOk then s.fresh else s.fresh + 1 } .round)

/-- The working variables a..h as W-bit words (R22, R24). -/
def workWords (s : State) : Vector (BitVec (width s.var)) 8 := Vector.ofFn fun k => lowWord s.var s.v[k]

/-- The words that ROUND computes (R166, R203); outside the range of T free values (log entry 7). -/
def roundResult (s : State) : Vector (BitVec (width s.var)) 8 :=
  if h : s.t.toNat < rounds s.var then
    roundWords s.var (workWords s) (kConst s.var s.t.toNat h)
      (schedEntry s s.t.toNat (Nat.lt_of_lt_of_le h (rounds_le s.var)))
  else Vector.ofFn fun k => lowWord s.var (Config.outOfRangeWord (s.fresh + k.val))

/-- STEP_ROUND (R203). -/
def execStepRound (s : State) : Host.Outcome State Fault Refusal :=
  .next (State.advance { s with
    v := Vector.ofFn fun k => zext64 (roundResult s)[k]
    fresh := if s.roundIndexOk then s.fresh else s.fresh + 8 } .fold)

/-- STEP_FOLD (R204). The comparison of block counts is exact (R11). -/
def execStepFold (s : State) : Host.Outcome State Fault Refusal :=
  .next { s with
    h := Vector.ofFn fun k => zext64 (lowWord s.var s.h[k] + lowWord s.var s.v[k])
    blk := s.blk + 1
    state := if s.blk.toNat + 1 = s.nb.toNat then .done else .load }

/-- STATE = DONE (R205). -/
def execNoStepDone (s : State) : Host.Outcome State Fault Refusal := noStep s

/-- STATE = FAULT (R205): stopped until ABORT or reset. -/
def execNoStepFault (s : State) : Host.Outcome State Fault Refusal := noStep s

end Sys2Proof.Machine
end

