-- ==== Sys2Proof/Machine/HostPort.lean ====
section
/-! DEFINITION. The host transactions: the HOST rows of the opcode table (44_driver.md R180 to R182, R187). -/

namespace Sys2Proof.Machine

/-- A host transaction that changes nothing (R187). -/
def ignoredWrite (s : State) : Host.Outcome State Fault Refusal := .next s

/-- RD (R181): RDATA <- value(RIDX); no state of the engine is written (R34). -/
def execRd (ridx : BitVec 5) (s : State) : Host.Outcome State Fault Refusal :=
  .next { s with rdata := regValue s ridx }

/-- WR_CMD (R180): the data is a command word, executed at once. -/
def execWrCmd (wdata : Word) (s : State) : Host.Outcome State Fault Refusal := .next (s.runCommand wdata)

/-- WR_STATUS (R187): ignored. -/
def execWrStatus (_wdata : Word) (s : State) : Host.Outcome State Fault Refusal := ignoredWrite s

/-- WR_MSG_LEN (R182): while busy MSG_LEN keeps its value and ERR_BUSY is set. -/
def execWrMsgLen (wdata : Word) (s : State) : Host.Outcome State Fault Refusal :=
  .next (if s.busy then s.signalErrBusy else { s with msgLen := wdata })

/-- WR_NBLK (R187): ignored. -/
def execWrNblk (_wdata : Word) (s : State) : Host.Outcome State Fault Refusal := ignoredWrite s

/-- WR_BLKCNT_RSV (R187): ignored at BLKCNT and at the reserved indices 5..7. -/
def execWrBlkcntRsv (_low : BitVec 2) (_wdata : Word) (s : State) : Host.Outcome State Fault Refusal :=
  ignoredWrite s

/-- WR_DIGEST (R187): ignored; H is unchanged. -/
def execWrDigest (_k : BitVec 3) (_wdata : Word) (s : State) : Host.Outcome State Fault Refusal :=
  ignoredWrite s

/-- WR_WV_RSV (R187): ignored at WV_A..WV_H and at the reserved indices 24..31. -/
def execWrWvRsv (_low : BitVec 4) (_wdata : Word) (s : State) : Host.Outcome State Fault Refusal :=
  ignoredWrite s

end Sys2Proof.Machine
end

