-- ==== Sys2Proof/Machine/Dispatch.lean ====
section
/-! DEFINITION. One arm per constructor of Instr: the meaning of each row of the opcode table. -/

namespace Sys2Proof.Machine

def exec (i : Instr) (s : State) : Host.Outcome State Fault Refusal :=
  match i with
  -- host transactions
  | .rd ridx => Sys2Proof.Machine.execRd ridx s
  | .wrCmd wdata => Sys2Proof.Machine.execWrCmd wdata s
  | .wrStatus wdata => Sys2Proof.Machine.execWrStatus wdata s
  | .wrMsgLen wdata => Sys2Proof.Machine.execWrMsgLen wdata s
  | .wrNblk wdata => Sys2Proof.Machine.execWrNblk wdata s
  | .wrBlkcntRsv low wdata => Sys2Proof.Machine.execWrBlkcntRsv low wdata s
  | .wrDigest k wdata => Sys2Proof.Machine.execWrDigest k wdata s
  | .wrWvRsv low wdata => Sys2Proof.Machine.execWrWvRsv low wdata s
  -- command words
  | .nop => Sys2Proof.Machine.execNop s
  | .hash256 => Sys2Proof.Machine.execHash256 s
  | .hash512 => Sys2Proof.Machine.execHash512 s
  | .abort => Sys2Proof.Machine.execAbort s
  | .illegal word => Sys2Proof.Machine.execIllegal word s
  -- engine steps
  | .noStepIdle => Sys2Proof.Machine.execNoStepIdle s
  | .stepPad => Sys2Proof.Machine.execStepPad s
  | .stepLoad => Sys2Proof.Machine.execStepLoad s
  | .stepExpand => Sys2Proof.Machine.execStepExpand s
  | .stepRound => Sys2Proof.Machine.execStepRound s
  | .stepFold => Sys2Proof.Machine.execStepFold s
  | .noStepDone => Sys2Proof.Machine.execNoStepDone s
  | .noStepFault => Sys2Proof.Machine.execNoStepFault s

end Sys2Proof.Machine
end

