-- ==== Sys2Proof/Machine/Inputs.lean ====
section
/-! DEFINITION. The agents' moves: the engine's step selected by STATE (30_encoding.md R87), the host's next
transaction or poll (R80, R89), transactions while reset is held (70_reset_and_hazards.md R250), whose turn it is
(00_scope.md R4, R265), and the host assembler's statements with their expansions (R89, R90). -/

namespace Sys2Proof.Machine

/-! ### The engine -/

/-- The engine's next step: the STATE code, and nothing else, selects it (R87). -/
def engineEncoded (s : State) : Encoded := .stateCode s.state.code

/-- One engine step (R87, R200 to R205). -/
def engineStep (s : State) : Host.Outcome State Fault Refusal := exec (decode (engineEncoded s)) s

/-! ### The host -/

/-- A host transaction while reset is held (R250, U4): a write has no effect; a read returns a free value
(log entry 6). -/
def State.heldTransaction (s : State) (e : Encoded) : State :=
  match e with
  | .host header _ =>
    if headerWE header then s else { s with rdata := Config.heldRead s.fresh, fresh := s.fresh + 1 }
  | .command _ => s
  | .stateCode _ => s

/-- One host-port transaction: executed, unless reset is held (R250). -/
def hostStep (e : Encoded) (s : State) : Host.Outcome State Fault Refusal :=
  if s.resetHeld then .next (s.heldTransaction e) else exec (decode e) s

/-- The read that a poll of register `reg` performs (R89). -/
def pollEncoded (reg : BitVec 5) : Encoded := .host (mkHeader false reg) 0

/-- After a poll's read (R89): finished when `(rdata & MASK) = VALUE`; else the poll stays the host's next
statement. -/
def State.afterPoll (s : State) (reg : BitVec 5) (mask value : Word) : State :=
  if s.rdata &&& mask = value then s
  else { s with program := .poll reg mask value :: s.program }

/-- One read of a poll statement (R89). -/
def pollStep (reg : BitVec 5) (mask value : Word) (s : State) : Host.Outcome State Fault Refusal :=
  match hostStep (pollEncoded reg) s with
  | .next s' => .next (s'.afterPoll reg mask value)
  | .fault r => .fault r
  | .refused r => .refused r

/-- The host issues one entry, already taken from its program. -/
def opStep (op : HostOp) (s : State) : Host.Outcome State Fault Refusal :=
  match op with
  | .transaction header wdata => hostStep (.host header wdata) s
  | .command word => hostStep (.command word) s
  | .poll reg mask value => pollStep reg mask value s

/-- The host's turn: one transaction of its program, and nothing when it has none left to issue. -/
def hostTurn (s : State) : Host.Outcome State Fault Refusal :=
  match s.program with
  | [] => .next s
  | op :: rest => opStep op { s with program := rest }

/-! ### Whose turn it is -/

/-- Who moves next: the first of the listed turns. With none listed the engine moves while it is busy or the host
has nothing left to issue, and the host moves otherwise, so that every run is fair to the engine (R265, log
entry 1). -/
def nextTurn (s : State) : Turn :=
  match s.turns with
  | turn :: _ => turn
  | [] => if s.busy || s.program.isEmpty then .engine else .host

/-- One move of an agent. -/
def turnStep (turn : Turn) (s : State) : Host.Outcome State Fault Refusal :=
  match turn with
  | .engine => engineStep s
  | .host => hostTurn s
  | .platformWrite addr byte => .next (s.platformWrite addr byte)
  | .resetOn => .next s.assertReset
  | .resetOff => .next s.releaseReset

/-- The state with the turn taken from the list. -/
def State.popTurn (s : State) : State := { s with turns := s.turns.tail }

/-- The run of a host program is over: the host has nothing more to issue and STATE is quiescent (R210). -/
def runEnded (s : State) : Bool := s.program.isEmpty && !s.busy

/-! ### The host assembler -/

/-- The statements of the host assembler, with the pseudo-instructions (R89, R90). -/
inductive Statement where
  | rd (reg : BitVec 5)
  | wr (reg : BitVec 5) (value : Word)
  | poll (reg : BitVec 5) (mask value : Word)
  | nop
  | hash256
  | hash512
  | abort
  | setlen (n : Word)
  | wait
  | getdigest
deriving DecidableEq, Repr

/-- The read transaction of a register (R89). -/
def readOp (reg : BitVec 5) : HostOp := .transaction (mkHeader false reg) 0

/-- The write transaction of a register (R89). -/
def writeOp (reg : BitVec 5) (value : Word) : HostOp := .transaction (mkHeader true reg) value

/-- The expansion of a statement into what the host does (R89, R90). -/
def Statement.ops : Statement → List HostOp
  | .rd reg => [readOp reg]
  | .wr reg value => [writeOp reg value]
  | .poll reg mask value => [.poll reg mask value]
  | .nop => [writeOp regCmd 0x0]
  | .hash256 => [writeOp regCmd 0x1]
  | .hash512 => [writeOp regCmd 0x11]
  | .abort => [writeOp regCmd 0x2]
  | .setlen n => [writeOp regMsgLen n]
  | .wait => [.poll regStatus 0x1 0x0]
  | .getdigest =>
    [readOp (regDigest 0), readOp (regDigest 1), readOp (regDigest 2), readOp (regDigest 3),
     readOp (regDigest 4), readOp (regDigest 5), readOp (regDigest 6), readOp (regDigest 7)]

/-- A host program is a sequence of statements (R89). -/
def assemble (program : List Statement) : List HostOp := program.flatMap Statement.ops

/-- The machine so that its very next step runs the encoded thing `e`: a transaction or a command word stands
first in the host's program and the host has the next turn; a STATE code is put into STATE and the engine has
it. -/
def State.withEncoded (s : State) (e : Encoded) : State :=
  match e with
  | .host header wdata =>
    { s with program := .transaction header wdata :: s.program, turns := .host :: s.turns, resetHeld := false }
  | .command word => { s with program := .command word :: s.program, turns := .host :: s.turns, resetHeld := false }
  | .stateCode code => { s with state := FsmState.ofCode code, turns := .engine :: s.turns }

end Sys2Proof.Machine
end

