-- ==== Sys2Proof/Machine/Step.lean ====
section
/-! DEFINITION. One step of the machine: the agent whose turn it is moves (00_scope.md R4). -/

namespace Sys2Proof.Machine

/-- One step of the machine. -/
def step (s : State) : Host.Outcome State Fault Refusal := turnStep (nextTurn s) s.popTurn

/-- The state whose next step runs the opcode-table word `w` of `nbits` bits; unchanged where the table's
numbering gives no encoding (log entries 3 and 12). -/
def State.withFetchWord (s : State) (nbits w : Nat) : State :=
  match tableEncoded nbits w with
  | some e => s.withEncoded e
  | none => s

end Sys2Proof.Machine
end

