-- ==== Sys2Proof/Safety.lean ====
section
/-! DEFINITION. What counts as a safe run: the invariants of the machine, in the terms the claims use, and runs
of several steps. -/

namespace Sys2Proof.Machine

/-- `n` steps of the machine. -/
def run (n : Nat) (s : State) : Host.Outcome State Fault Refusal := Host.Core.run Sys2Proof.core n s

/-- The range of T in each STATE (R27). -/
def TInRange (s : State) : Prop :=
  match s.state with
  | .expand => 16 ≤ s.t.toNat ∧ s.t.toNat < rounds s.var
  | .round => s.t.toNat < rounds s.var
  | .idle => s.t = 0
  | .pad => s.t = 0
  | .load => s.t = 0
  | .fold => s.t = 0
  | .done => s.t = 0
  | .fault => s.t = 0

/-- BLK and NB in each STATE (R28, R29): while a hash runs NB is the block count of the padded message and BLK
the index of one of its blocks; in DONE they are equal. -/
def BlocksInRange (s : State) : Prop :=
  match s.state with
  | .pad => s.blk = 0 ∧ s.nb = 0
  | .load => s.nb.toNat = numBlocks s.var s.len ∧ s.blk.toNat < s.nb.toNat
  | .expand => s.nb.toNat = numBlocks s.var s.len ∧ s.blk.toNat < s.nb.toNat
  | .round => s.nb.toNat = numBlocks s.var s.len ∧ s.blk.toNat < s.nb.toNat
  | .fold => s.nb.toNat = numBlocks s.var s.len ∧ s.blk.toNat < s.nb.toNat
  | .done => s.blk = s.nb
  | .idle => True
  | .fault => True

/-- The sequencing registers and the flags that go with a STATE (R27 to R29, R224, R225). -/
structure SequencingInv (s : State) : Prop where
  tInRange : TInRange s
  blocksInRange : BlocksInRange s
  /-- ERR_INV = 1 exactly when STATE = FAULT (R224). -/
  errInv_iff_fault : s.errInv = true ↔ s.state = .fault
  /-- NO_DIGEST = 1 only after the LEGACY empty-message case, with H = 0 (R184). -/
  noDigest_legacy : s.noDigest = true →
    s.state = .done ∧ s.cfg.emptyPolicy = .legacy ∧ s.h = Vector.replicate 8 0

/-- FAULT is not entered (R223: "unreachable"). -/
structure NeverFaultInv (s : State) : Prop where
  state_ne_fault : s.state ≠ .fault
  errInv_clear : s.errInv = false

/-- Bits 63:32 of a register are 0. -/
def UpperHalfZero (x : Word) : Prop := x.toNat < 2 ^ 32

/-- Under V32 a register that a V32 step wrote has bits 63:32 zero (R22): H from PAD on, V from LOAD on, and
the schedule entries written for the current block. -/
structure ZeroExtensionInv (s : State) : Prop where
  h : s.var = .v32 → s.state ∈ [.load, .expand, .round, .fold, .done] → ∀ k : Fin 8, UpperHalfZero s.h[k]
  v : s.var = .v32 → (s.state ∈ [.expand, .round, .fold] ∨ s.state = .done ∧ s.noDigest = false) →
    ∀ k : Fin 8, UpperHalfZero s.v[k]
  ws_expand : s.var = .v32 → s.state = .expand → ∀ k : Fin 80, k.val < s.t.toNat → UpperHalfZero s.ws[k]
  ws_rounds : s.var = .v32 → s.state ∈ [.round, .fold] → ∀ k : Fin 80, k.val < 64 → UpperHalfZero s.ws[k]

/-- The message addresses read so far in each STATE of a hash: all those below the end of the blocks loaded
and below L, each once, in ascending order, and no other (R62). -/
def MessageReadsInv (s : State) : Prop :=
  match s.state with
  | .pad => s.msgReads = []
  | .load => s.msgReads = List.range (min (s.blk.toNat * blockBytes s.var) s.len)
  | .expand => s.msgReads = List.range (min ((s.blk.toNat + 1) * blockBytes s.var) s.len)
  | .round => s.msgReads = List.range (min ((s.blk.toNat + 1) * blockBytes s.var) s.len)
  | .fold => s.msgReads = List.range (min ((s.blk.toNat + 1) * blockBytes s.var) s.len)
  | .idle => True
  | .done => True
  | .fault => True

/-- While reset is held every element of R20 keeps its reset value (R250). -/
def ResetHeldInv (s : State) : Prop := s.resetHeld = true → s.assertReset = s

/-- The message memory has its canonical form. -/
def MemoryInv (s : State) : Prop := Memory.wf s.mem = true

/-- The engine steps of one block (R207): LOAD, N − 16 EXPAND, N ROUND, FOLD. -/
def blockSteps (v : Variant) : Nat := 2 + (rounds v - 16) + rounds v

/-- The engine steps of one hash of `blocks` blocks (R207): 1 + NB · (2 + (N − 16) + N). -/
def hashSteps (v : Variant) (blocks : Nat) : Nat := 1 + blocks * blockSteps v

/-- The engine steps that a hash still needs to reach DONE. -/
def remainingSteps (s : State) : Nat :=
  match s.state with
  | .pad => hashSteps s.var (numBlocks s.var s.len)
  | .load => (s.nb.toNat - s.blk.toNat) * blockSteps s.var
  | .expand => (s.nb.toNat - (s.blk.toNat + 1)) * blockSteps s.var + (rounds s.var - s.t.toNat) + rounds s.var + 1
  | .round => (s.nb.toNat - (s.blk.toNat + 1)) * blockSteps s.var + (rounds s.var - s.t.toNat) + 1
  | .fold => (s.nb.toNat - (s.blk.toNat + 1)) * blockSteps s.var + 1
  | .idle => 0
  | .done => 0
  | .fault => 0

/-! ### Events -/

/-- The step from `s` takes the host's entry `op`. -/
def takesOp (s : State) (op : HostOp) : Prop := nextTurn s = .host ∧ s.program.head? = some op

/-- The step from `s` writes the command word `word` to CMD: in the pseudo-instruction form or as a write
transaction with header 0x20 (R90), with reset not held. -/
def takesCommand (s : State) (word : Word) : Prop :=
  s.resetHeld = false ∧ (takesOp s (.command word) ∨ takesOp s (.transaction 0x20 word))

/-- The step from `s` writes a HASH of variant `v` to CMD (R83). -/
def takesHash (s : State) (v : Variant) : Prop :=
  takesCommand s (match v with | .v32 => 0x1 | .v64 => 0x11)

/-- The step from `s` is another agent's write of a byte of the message that is being hashed (R261). -/
def takesRacingWrite (s : State) : Prop :=
  s.busy = true ∧ ∃ addr byte, nextTurn s = .platformWrite addr byte ∧ addr.toNat < s.len

/-! ### The hash of a message -/

/-- The words of a chaining value or of the working variables, each zero-extended (R22). -/
def zextWords {w : Nat} (x : Vector (BitVec w) 8) : Vector Word 8 := Vector.ofFn fun k => zext64 x[k]

/-- The schedule of block i of a message (R140). -/
def blockSchedule (v : Variant) (len : Nat) (msg : Nat → Byte) (i : Nat) : List (BitVec (width v)) :=
  schedule v (blockWords v len msg i)

/-- Where the registers of the datapath stand while the message is hashed: H is the chaining value before block
BLK (R169), Ws holds the schedule of block BLK as far as it has been computed (R140), V the working variables
after T rounds (R160), and DONE the digest, the block counts (R38) and the message reads of the hash (R62). -/
def DatapathInv (v : Variant) (len : Nat) (msg : Nat → Byte) (s : State) : Prop :=
  let chain := chaining v len msg s.blk.toNat
  let sched := blockSchedule v len msg s.blk.toNat
  match s.state with
  | .pad => True
  | .load => s.h = zextWords chain
  | .expand => s.h = zextWords chain ∧ s.v = zextWords chain ∧
      ∀ k : Fin 80, k.val < s.t.toNat → s.ws[k] = zext64 (sched.getD k.val 0)
  | .round => s.h = zextWords chain ∧ s.v = zextWords (roundsDone v sched chain s.t.toNat) ∧
      ∀ k : Fin 80, k.val < rounds v → s.ws[k] = zext64 (sched.getD k.val 0)
  | .fold => s.h = zextWords chain ∧ s.v = zextWords (roundsDone v sched chain (rounds v))
  | .done => s.h = zextWords (digest v len msg) ∧ s.nb.toNat = numBlocks v len ∧ s.blk = s.nb ∧
      s.msgReads = List.range len
  | .idle => False
  | .fault => False

/-- The hash in progress, or the one that has ended in DONE, is that of variant `v` on the message of `len` bytes
`msg`: while it is busy MSG_LEN and the message memory hold that message and no byte of it has been written since
the HASH (R71 (a), R208). -/
structure DigestInv (v : Variant) (len : Nat) (msg : Nat → Byte) (s : State) : Prop where
  var_eq : s.var = v
  noDigest_clear : s.noDigest = false
  message : s.busy = true → s.len = len ∧ s.stale = [] ∧ ∀ j, j < len → Memory.read s.mem j = msg j
  datapath : DatapathInv v len msg s

end Sys2Proof.Machine
end

