-- ==== Sys2Proof/Certificates/Slice0/Obligations.lean ====
section
/-! DEFINITION. The statements about the machine, one `def Obligations.<Name> : Prop` each. Each docstring names
the rule of spec/ it formalises, or says what it rests on. "Frame" clauses are whole-state equalities: a
state that is equal to `s` once the named fields are put back leaves everything else unchanged. -/

open Sys2Proof Sys2Proof.Machine

/-! ### Encodings -/

/-- Decoding the encoding of a well-formed instruction gives it back, every operand at every value (R80 to R87). -/
def Obligations.DecodeEncodeRoundTrip : Prop :=
  ∀ i : Instr, WellFormed i = true → decode (encode i) = i

/-- The other direction: an encoded thing decodes to a well-formed instruction, and encodes to itself again when
the data lines of a read are zeros (a read carries no WDATA, R80). -/
def Obligations.EncodeDecodeRoundTrip : Prop :=
  ∀ e : Encoded, WellFormed (decode e) = true ∧
    ((∀ header wdata, e = .host header wdata → headerWE header = false → wdata = 0) → encode (decode e) = e)

/-- A plain number is read as an encoding exactly when its bits fit the length of R80, R82 and R87, the length of
a transaction depending on WE alone (R88); a number with more bits is rejected by name. The order of header and
WDATA in the number of a write is the model's choice (log entry 14). -/
def Obligations.RawDecodeByLength : Prop :=
  (∀ i : Instr, WellFormed i = true → decodeRaw (rawOf (encode i)).1 (rawOf (encode i)).2 = .ok i) ∧
  (∀ w : Nat, decodeRaw .host w = .error .bitsBeyondTransaction ↔
    2 ^ (if w.testBit 5 then 70 else 6) ≤ w) ∧
  (∀ w : Nat, decodeRaw .cmd w = .error .bitsBeyondCommandWord ↔ 2 ^ 64 ≤ w) ∧
  (∀ w : Nat, decodeRaw .stateCode w = .error .bitsBeyondStateCode ↔ 2 ^ 3 ≤ w)

/-- R84: legality is its three conditions, the legal words are exactly four, and every other word decodes to
ILLEGAL. -/
def Obligations.LegalCommandWords : Prop :=
  ∀ c : Word,
    (cmdLegal c = true ↔
      c.toNat / 2 ^ 5 = 0 ∧ (c.toNat % 2 ^ 4 = 0 ∨ c.toNat % 2 ^ 4 = 1 ∨ c.toNat % 2 ^ 4 = 2) ∧
        (c.toNat / 2 ^ 4 % 2 = 0 ∨ c.toNat % 2 ^ 4 = 1)) ∧
    (cmdLegal c = true ↔ c = 0x0 ∨ c = 0x1 ∨ c = 0x11 ∨ c = 0x2) ∧
    (cmdLegal c = false ↔ decode (.command c) = .illegal c)

/-- A few words written out from R80, R83 and R87 decode to what they stand for. The last three conjuncts give the
words as the opcode table numbers them, and rest on log entry 3 too: of the numbers of 8 bits, 0 to 7 are read as
STATE codes and 8 to 63 as headers with zero data, which is the model's choice. -/
def Obligations.SampleWordsDecode : Prop :=
  decode (.host 0b000001 0) = .rd 1 ∧
  decode (.host 0b100000 0x11) = .wrCmd 0x11 ∧
  decode (.host 0b100010 3) = .wrMsgLen 3 ∧
  decode (.host 0b101101 5) = .wrDigest 5 5 ∧
  decode (.command 0b00001) = .hash256 ∧
  decode (.command 0b10001) = .hash512 ∧
  decode (.command 0b10010) = .illegal 0x12 ∧
  decode (.stateCode 0b011) = .stepExpand ∧
  decodeTableWord 8 0b100001 = some (.wrStatus 0) ∧
  decodeTableWord 64 0b00010 = some .abort ∧
  decodeTableWord 3 0b101 = some .stepFold

/-! ### The step -/

/-- A step runs the decoded instruction: at the engine's turn the step that the STATE code selects (R4, R87), at
the host's turn the transaction or command word that is next in its program. What the step adds is that the turn,
and the host's entry, are taken from their lists. Whose turn it is: the first listed, and with none listed the
engine's while it is busy or the host has nothing left (R265, log entry 1); a host with nothing left does nothing. -/
def Obligations.StepRunsDecodedInstruction : Prop :=
  ∀ s : State,
    (nextTurn s = .engine →
      step s = exec (decode (.stateCode s.state.code)) { s with turns := s.turns.tail }) ∧
    (∀ header wdata rest, nextTurn s = .host → s.program = .transaction header wdata :: rest →
      s.resetHeld = false →
      step s = exec (decode (.host header wdata)) { s with turns := s.turns.tail, program := rest }) ∧
    (∀ word rest, nextTurn s = .host → s.program = .command word :: rest → s.resetHeld = false →
      step s = exec (decode (.command word)) { s with turns := s.turns.tail, program := rest }) ∧
    (nextTurn s = .host → s.program = [] → step s = .next { s with turns := s.turns.tail }) ∧
    (∀ turn rest, s.turns = turn :: rest → nextTurn s = turn) ∧
    (s.turns = [] → nextTurn s = if s.busy = true ∨ s.program = [] then .engine else .host)

/-- R87: STATE, and nothing else, selects the engine's next step; its codes are 0 to 7 (R21). -/
def Obligations.StateSelectsEngineStep : Prop :=
  ([FsmState.idle, .pad, .load, .expand, .round, .fold, .done, .fault].map FsmState.code =
    [0, 1, 2, 3, 4, 5, 6, 7]) ∧
  ∀ s : State,
    (s.state = .idle → engineStep s = exec .noStepIdle s) ∧
    (s.state = .pad → engineStep s = exec .stepPad s) ∧
    (s.state = .load → engineStep s = exec .stepLoad s) ∧
    (s.state = .expand → engineStep s = exec .stepExpand s) ∧
    (s.state = .round → engineStep s = exec .stepRound s) ∧
    (s.state = .fold → engineStep s = exec .stepFold s) ∧
    (s.state = .done → engineStep s = exec .noStepDone s) ∧
    (s.state = .fault → engineStep s = exec .noStepFault s)

/-- R89's poll: one read of REG at each of the host's turns; the statement is over when the masked value matches,
and stays the host's next statement otherwise. Between two reads any turns may come. -/
def Obligations.PollReadsUntilMatch : Prop :=
  ∀ (s : State) (reg : BitVec 5) (mask value : Word) (rest : List HostOp),
    nextTurn s = .host → s.program = .poll reg mask value :: rest → s.resetHeld = false →
    (regValue s reg &&& mask = value →
      step s = .next { s with turns := s.turns.tail, program := rest, rdata := regValue s reg }) ∧
    (regValue s reg &&& mask ≠ value →
      step s = .next { s with turns := s.turns.tail, rdata := regValue s reg })

/-- No encoding traps (R81, R220): every instruction in every state answers a next state, and so does every
step. -/
def Obligations.EveryInstructionCompletes : Prop :=
  (∀ (i : Instr) (s : State), ∃ t, exec i s = .next t) ∧ (∀ s : State, ∃ t, step s = .next t)

/-! ### Host transactions -/

/-- R181: a read returns the value of R32's table and writes no state; its headers are 0x00 to 0x1F. -/
def Obligations.ReadReturnsRegisterValue : Prop :=
  (∀ (s : State) (ridx : BitVec 5), exec (.rd ridx) s = .next { s with rdata := regValue s ridx }) ∧
  (∀ (ridx : BitVec 5) (d : Word), decode (.host ((0 : BitVec 1) ++ ridx) d) = .rd ridx) ∧
  ∀ s : State,
    regValue s 0 = 0 ∧ regValue s 1 = statusWord s ∧ regValue s 2 = s.msgLen ∧
    regValue s 3 = s.nb ∧ regValue s 4 = s.blk ∧
    (∀ k : Fin 3, regValue s (BitVec.ofNat 5 (5 + k.val)) = 0) ∧
    (∀ k : Fin 8, regValue s (BitVec.ofNat 5 (8 + k.val)) = s.h[k]) ∧
    (∀ k : Fin 8, regValue s (BitVec.ofNat 5 (16 + k.val)) = s.v[k]) ∧
    (∀ k : Fin 8, regValue s (BitVec.ofNat 5 (24 + k.val)) = 0)

/-- R31: every field of STATUS, and zero in the reserved bits and after reset. -/
def Obligations.StatusFieldLayout : Prop :=
  statusWord State.reset = 0 ∧
  ∀ s : State,
    (statusWord s).getLsbD 0 = decide (s.state ∈ [.pad, .load, .expand, .round, .fold]) ∧
    (statusWord s).getLsbD 1 = decide (s.state = .done) ∧
    (statusWord s).getLsbD 2 = s.noDigest ∧
    (statusWord s).getLsbD 3 = decide (s.var = .v64) ∧
    (statusWord s).getLsbD 4 = s.errCmd ∧
    (statusWord s).getLsbD 5 = s.errBusy ∧
    (statusWord s).getLsbD 6 = s.errInv ∧
    (statusWord s).getLsbD 7 = false ∧
    (statusWord s).extractLsb' 8 3 = s.state.code ∧
    (statusWord s).getLsbD 11 = false ∧
    (statusWord s).extractLsb' 12 7 = s.t ∧
    (statusWord s).extractLsb' 19 45 = 0

/-- R182: a write to MSG_LEN, header 0x22, is taken whole in IDLE, DONE and FAULT; while busy only ERR_BUSY is
set. -/
def Obligations.MsgLenWriteUnlessBusy : Prop :=
  ∀ (s : State) (d : Word), decode (.host 0x22 d) = .wrMsgLen d ∧
    (s.state ∈ [.pad, .load, .expand, .round, .fold] →
      exec (.wrMsgLen d) s = .next { s with errBusy := true }) ∧
    (s.state ∈ [.idle, .done, .fault] → exec (.wrMsgLen d) s = .next { s with msgLen := d })

/-- R187: a write to a read-only or reserved index changes nothing: all headers 0x21 and 0x23 to 0x3F. -/
def Obligations.ReadOnlyWritesIgnored : Prop :=
  ∀ (s : State) (d : Word),
    exec (.wrStatus d) s = .next s ∧ exec (.wrNblk d) s = .next s ∧
    (∀ l, exec (.wrBlkcntRsv l d) s = .next s) ∧ (∀ k, exec (.wrDigest k d) s = .next s) ∧
    (∀ l, exec (.wrWvRsv l d) s = .next s) ∧
    ∀ header : BitVec 6, header = 0x21 ∨ 0x23 ≤ header → exec (decode (.host header d)) s = .next s

/-- R180: a write to CMD, header 0x20, tests legality first, in every STATE, and then runs the operation that OP
names; the same write given as a command word runs the same step. -/
def Obligations.CommandWriteRunsOperation : Prop :=
  ∀ (s : State) (c : Word), decode (.host 0x20 c) = .wrCmd c ∧
    (cmdLegal c = false → exec (.wrCmd c) s = .next { s with errCmd := true }) ∧
    (cmdLegal c = true → cmdOp c = 0x0 → exec (.wrCmd c) s = .next s) ∧
    (cmdLegal c = true → cmdOp c = 0x1 →
      exec (.wrCmd c) s = exec (if c.getLsbD 4 then .hash512 else .hash256) s) ∧
    (cmdLegal c = true → cmdOp c = 0x2 → exec (.wrCmd c) s = exec .abort s) ∧
    (∃ t, exec (.wrCmd c) s = .next t) ∧
    exec (.wrCmd c) s = exec (decode (.command c)) s

/-! ### Commands -/

/-- R183: NOP, command word 0x0, changes nothing, in every STATE; no flag is cleared. -/
def Obligations.NopChangesNothing : Prop :=
  decode (.command 0x0) = .nop ∧ ∀ s : State, exec .nop s = .next s

/-- R184: a HASH is rejected with ERR_BUSY while busy and in FAULT; in IDLE and DONE it is accepted. An accepted
HASH ends at once in the LEGACY empty case and enters PAD otherwise. The two records of message reads and racing
writes that it begins anew are the model's own fields (log entries 5 and 8). -/
def Obligations.HashStartsOrIsRejected : Prop :=
  decode (.command 0x1) = .hash256 ∧ decode (.command 0x11) = .hash512 ∧
  ∀ (s : State) (i : Instr) (v : Variant), (i = .hash256 ∧ v = .v32 ∨ i = .hash512 ∧ v = .v64) →
    (s.state ∈ [.pad, .load, .expand, .round, .fold, .fault] →
      exec i s = .next { s with errBusy := true }) ∧
    (s.state ∈ [.idle, .done] → s.msgLen = 0 ∧ s.cfg.emptyPolicy = .legacy →
      exec i s = .next { s with
        var := v, errCmd := false, errBusy := false, t := 0, blk := 0, nb := 0
        h := Vector.replicate 8 0, noDigest := true, state := .done, stale := [], msgReads := [] }) ∧
    (s.state ∈ [.idle, .done] → ¬(s.msgLen = 0 ∧ s.cfg.emptyPolicy = .legacy) →
      exec i s = .next { s with
        var := v, errCmd := false, errBusy := false, t := 0, blk := 0, nb := 0
        noDigest := false, state := .pad, stale := [], msgReads := [] })

/-- R185: ABORT, command word 0x2, in every STATE; H, V, Ws, BLK, NB, VAR and MSG_LEN are unchanged. -/
def Obligations.AbortReturnsToIdle : Prop :=
  decode (.command 0x2) = .abort ∧
  ∀ s : State, exec .abort s = .next { s with
    state := .idle, t := 0, noDigest := false, errCmd := false, errBusy := false, errInv := false }

/-- R186: a command word that is not legal sets ERR_CMD and changes nothing else, in every STATE. -/
def Obligations.IllegalCommandSetsErrCmd : Prop :=
  ∀ (s : State) (c : Word), cmdLegal c = false →
    decode (.command c) = .illegal c ∧ exec (.illegal c) s = .next { s with errCmd := true }

/-! ### Engine steps -/

/-- R205: in IDLE, DONE and FAULT the engine has no step and everything stays. -/
def Obligations.QuiescentEngineStays : Prop :=
  ∀ s : State,
    exec .noStepIdle s = .next s ∧ exec .noStepDone s = .next s ∧ exec .noStepFault s = .next s ∧
    (s.state ∈ [.idle, .done, .fault] → engineStep s = .next s)

/-- R200: the PAD step. NB is the exact block count; the check cannot fail, and what a failing check would do is
said of the step's body; H <- IV; no message byte is read. -/
def Obligations.PadStepEffect : Prop :=
  decode (.stateCode 1) = .stepPad ∧
  (∀ (v : Variant) (nb : Nat), 8 * nb * blockBytes v % (8 * blockBytes v) = 0) ∧
  (∀ (s : State) (nb : Nat), padWith s nb =
    if 8 * nb * blockBytes s.var % (8 * blockBytes s.var) ≠ 0 then
      { s with nb := BitVec.ofNat 64 nb, errInv := true, state := .fault }
    else { s with nb := BitVec.ofNat 64 nb, h := Vector.ofFn fun k => zext64 (iv s.var)[k], state := .load }) ∧
  ∀ s : State, ∃ t, exec .stepPad s = .next t ∧
    t.nb.toNat = (s.msgLen.toNat + lengthBytes s.var + blockBytes s.var) / blockBytes s.var ∧
    (∀ k : Fin 8, t.h[k] = zext64 (iv s.var)[k]) ∧ t.state = .load ∧
    { t with nb := s.nb, h := s.h, state := s.state } = s

/-- R201: the LOAD step. Ws[0..15] are the block's words, each the big-endian sum of its padded bytes (R63), V <- H,
T <- 16, and STATE <- EXPAND. The message bytes are those the read port returns; when no agent wrote them during
the hash they are the bytes held. The V32 reading of H follows R22 (log entry 9): where bits 63:32 of H are zero,
as they are in every run, V becomes H. A block with BLK ≥ NB, which no run loads, is padded by log entry 15. The
fields msgReads and fresh are the model's own (log entries 5 and 8). -/
def Obligations.LoadStepEffect : Prop :=
  decode (.stateCode 2) = .stepLoad ∧
  (∀ (v : Variant) (pb : Nat → Byte) (p k : Nat), (nativeWord v pb p k).toNat =
    ((List.range (wordBytes v)).map fun b =>
      (pb (p + wordBytes v * k + b)).toNat * 256 ^ (wordBytes v - 1 - b)).sum) ∧
  ∀ s : State, ∃ t, exec .stepLoad s = .next t ∧
    (let p := s.blk.toNat * blockBytes s.var
     let word := fun (msg : Nat → Byte) (k : Nat) => ((List.range (wordBytes s.var)).map fun b =>
       (padByte s.var s.msgLen.toNat msg (p + wordBytes s.var * k + b)).toNat * 256 ^ (wordBytes s.var - 1 - b)).sum
     (∀ k : Fin 80, k.val < 16 → t.ws[k].toNat = word (fun j => memRead s (s.fresh + (j - p)) j) k.val) ∧
     (s.stale = [] → ∀ k : Fin 80, k.val < 16 → t.ws[k].toNat = word (Memory.read s.mem) k.val)) ∧
    (∀ k : Fin 80, 16 ≤ k.val → t.ws[k] = s.ws[k]) ∧
    (∀ k : Fin 8, t.v[k] = zext64 (lowWord s.var s.h[k])) ∧
    ((s.var = .v64 ∨ ∀ k : Fin 8, UpperHalfZero s.h[k]) → t.v = s.h) ∧
    t.t = 16 ∧ t.state = .expand ∧
    t.msgReads = s.msgReads ++ blockReads s.var s.msgLen.toNat s.blk.toNat ∧
    { t with
      ws := s.ws, v := s.v, t := s.t, state := s.state, msgReads := s.msgReads, fresh := s.fresh } = s

/-- R202: the EXPAND step at 16 ≤ T ≤ N − 1. -/
def Obligations.ExpandStepEffect : Prop :=
  decode (.stateCode 3) = .stepExpand ∧
  ∀ s : State, 16 ≤ s.t.toNat → s.t.toNat ≤ rounds s.var - 1 → ∃ t, exec .stepExpand s = .next t ∧
    (∀ k : Fin 80, t.ws[k] =
      if k.val = s.t.toNat then
        zext64 (ssig1 s.var (lowWord s.var (s.ws.getD (s.t.toNat - 2) 0))
          + lowWord s.var (s.ws.getD (s.t.toNat - 7) 0)
          + ssig0 s.var (lowWord s.var (s.ws.getD (s.t.toNat - 15) 0))
          + lowWord s.var (s.ws.getD (s.t.toNat - 16) 0))
      else s.ws[k]) ∧
    (s.t.toNat = rounds s.var - 1 → t.t = 0 ∧ t.state = .round) ∧
    (s.t.toNat ≠ rounds s.var - 1 → t.t.toNat = s.t.toNat + 1 ∧ t.state = s.state) ∧
    { t with ws := s.ws, t := s.t, state := s.state } = s

/-- R203 with R166: the ROUND step at 0 ≤ T ≤ N − 1. -/
def Obligations.RoundStepEffect : Prop :=
  decode (.stateCode 4) = .stepRound ∧
  ∀ (s : State) (hT : s.t.toNat < rounds s.var), ∃ t, exec .stepRound s = .next t ∧
    (let x := fun k : Fin 8 => lowWord s.var s.v[k]
     let t1 := x 7 + bsig1 s.var (x 4) + ch (x 4) (x 5) (x 6) + kConst s.var s.t.toNat hT
       + lowWord s.var (s.ws.getD s.t.toNat 0)
     let t2 := bsig0 s.var (x 0) + maj (x 0) (x 1) (x 2)
     t.v = #v[zext64 (t1 + t2), zext64 (x 0), zext64 (x 1), zext64 (x 2), zext64 (x 3 + t1), zext64 (x 4),
       zext64 (x 5), zext64 (x 6)]) ∧
    (s.t.toNat = rounds s.var - 1 → t.t = 0 ∧ t.state = .fold) ∧
    (s.t.toNat ≠ rounds s.var - 1 → t.t.toNat = s.t.toNat + 1 ∧ t.state = s.state) ∧
    { t with v := s.v, t := s.t, state := s.state } = s

/-- R204: the FOLD step. BLK + 1 ≤ NB there, in every state that keeps the sequencing invariant. -/
def Obligations.FoldStepEffect : Prop :=
  decode (.stateCode 5) = .stepFold ∧
  (∀ s : State, SequencingInv s → s.state = .fold → s.blk.toNat + 1 ≤ s.nb.toNat) ∧
  ∀ s : State, ∃ t, exec .stepFold s = .next t ∧
    (∀ k : Fin 8, t.h[k] = zext64 (lowWord s.var s.h[k] + lowWord s.var s.v[k])) ∧
    t.blk = s.blk + 1 ∧
    (s.blk.toNat + 1 = s.nb.toNat → t.state = .done) ∧
    (s.blk.toNat + 1 ≠ s.nb.toNat → t.state = .load) ∧
    { t with h := s.h, blk := s.blk, state := s.state } = s

/-- Outside the range of T, which no run reaches, EXPAND and ROUND still answer a next state, with a free value as
their result (log entry 7): T and STATE follow the rule, and nothing but Ws[T], or V, changes. -/
def Obligations.OutOfRangeIndexStillSteps : Prop :=
  ∀ s : State,
    (¬(16 ≤ s.t.toNat ∧ s.t.toNat ≤ rounds s.var - 1) → ∃ t, exec .stepExpand s = .next t ∧
      (∀ k : Fin 80, k.val ≠ s.t.toNat → t.ws[k] = s.ws[k]) ∧
      t.t = s.t + 1 ∧ t.state = s.state ∧ { t with ws := s.ws, t := s.t, fresh := s.fresh } = s) ∧
    (¬ s.t.toNat ≤ rounds s.var - 1 → ∃ t, exec .stepRound s = .next t ∧
      t.t = s.t + 1 ∧ t.state = s.state ∧ { t with v := s.v, t := s.t, fresh := s.fresh } = s)

/-- R227: entering FAULT writes NB, ERR_INV and STATE and nothing else, and no engine step follows it. -/
def Obligations.FaultEntryIsPrecise : Prop :=
  ∀ (s : State) (blocks : Nat),
    s.enterFault blocks = { s with nb := BitVec.ofNat 64 blocks, errInv := true, state := .fault } ∧
    engineStep (s.enterFault blocks) = .next (s.enterFault blocks)

/-! ### Rules about the whole machine -/

/-- R206: the only changes of STATE that a step makes, each with the event that makes it. -/
def Obligations.StateTransitions : Prop :=
  ∀ s t : State, SequencingInv s → step s = .next t → t.state ≠ s.state →
    let legacyEmpty := s.msgLen = 0 ∧ s.cfg.emptyPolicy = .legacy
    ((∃ v, takesHash s v) ∧ s.state ∈ [.idle, .done] ∧ t.state = .pad ∧ ¬legacyEmpty) ∨
    ((∃ v, takesHash s v) ∧ s.state = .idle ∧ t.state = .done ∧ legacyEmpty) ∨
    (nextTurn s = .engine ∧
      ((s.state = .pad ∧ t.state = .load) ∨
      (s.state = .load ∧ t.state = .expand) ∨
      (s.state = .expand ∧ t.state = .round ∧ s.t.toNat = rounds s.var - 1) ∨
      (s.state = .round ∧ t.state = .fold ∧ s.t.toNat = rounds s.var - 1) ∨
      (s.state = .fold ∧ t.state = .load ∧ s.blk.toNat + 1 < s.nb.toNat) ∨
      (s.state = .fold ∧ t.state = .done ∧ s.blk.toNat + 1 = s.nb.toNat))) ∨
    (t.state = .idle ∧ (takesCommand s 0x2 ∨ nextTurn s = .resetOn))

/-- FAULT is left only by ABORT or by reset, and then to IDLE (R228). -/
def Obligations.FaultLeftOnlyByAbortOrReset : Prop :=
  ∀ s t : State, s.state = .fault → step s = .next t → t.state ≠ .fault →
    t.state = .idle ∧ (takesCommand s 0x2 ∨ nextTurn s = .resetOn)

/-- Which instruction sets which error flag, in which STATE, and that no instruction sets two (R221, R222,
R223, R226). -/
def Obligations.ErrorFlagSetters : Prop :=
  ∀ (i : Instr) (s t : State), exec i s = .next t →
    (s.errCmd = false → t.errCmd = true →
      (∃ c, i = .illegal c) ∨ ∃ c, i = .wrCmd c ∧ cmdLegal c = false) ∧
    (s.errBusy = false → t.errBusy = true →
      (s.state ∈ [.pad, .load, .expand, .round, .fold, .fault] ∧
        (i = .hash256 ∨ i = .hash512 ∨ i = .wrCmd 0x1 ∨ i = .wrCmd 0x11)) ∨
      (s.state ∈ [.pad, .load, .expand, .round, .fold] ∧ ∃ d, i = .wrMsgLen d)) ∧
    (s.errInv = false → t.errInv = false) ∧
    ¬(s.errCmd = false ∧ t.errCmd = true ∧ s.errBusy = false ∧ t.errBusy = true)

/-- Which instructions write each register and flag (R21, R23 to R30): no other changes it. The flags are sticky:
ERR_CMD and ERR_BUSY are cleared by an accepted HASH and by ABORT only, ERR_INV by ABORT only. -/
def Obligations.RegisterWriters : Prop :=
  ∀ (i : Instr) (s t : State), exec i s = .next t →
    let hash := i = .hash256 ∨ i = .hash512 ∨ i = .wrCmd 0x1 ∨ i = .wrCmd 0x11
    let accepted := hash ∧ s.state ∈ [.idle, .done]
    let abort := i = .abort ∨ i = .wrCmd 0x2
    let legacyEmpty := s.msgLen = 0 ∧ s.cfg.emptyPolicy = .legacy
    (t.state ≠ s.state → i = .stepPad ∨ i = .stepLoad ∨ i = .stepExpand ∨ i = .stepRound ∨ i = .stepFold ∨
      accepted ∨ abort) ∧
    (t.h ≠ s.h → i = .stepPad ∨ i = .stepFold ∨ (accepted ∧ legacyEmpty)) ∧
    (t.v ≠ s.v → i = .stepLoad ∨ i = .stepRound) ∧
    (t.ws ≠ s.ws → i = .stepLoad ∨ i = .stepExpand) ∧
    (t.msgLen ≠ s.msgLen → (∃ d, i = .wrMsgLen d) ∧ s.state ∈ [.idle, .done, .fault]) ∧
    (t.t ≠ s.t → i = .stepLoad ∨ i = .stepExpand ∨ i = .stepRound ∨ accepted ∨ abort) ∧
    (t.blk ≠ s.blk → i = .stepFold ∨ accepted) ∧
    (t.nb ≠ s.nb → i = .stepPad ∨ accepted) ∧
    (t.var ≠ s.var → accepted) ∧
    (s.noDigest = false → t.noDigest = true → accepted ∧ legacyEmpty) ∧
    (s.noDigest = true → t.noDigest = false → accepted ∨ abort) ∧
    (s.errCmd = true → t.errCmd = false → accepted ∨ abort) ∧
    (s.errBusy = true → t.errBusy = false → accepted ∨ abort) ∧
    (s.errInv = true → t.errInv = false → abort) ∧
    (t.rdata ≠ s.rdata → ∃ r, i = .rd r) ∧
    t.cfg = s.cfg ∧ t.program = s.program ∧ t.turns = s.turns ∧ t.resetHeld = s.resetHeld

/-- No instruction writes the message memory (R60, R11), and a step changes no byte but the one another agent
writes. -/
def Obligations.MessageMemoryFrame : Prop :=
  (∀ (i : Instr) (s t : State), exec i s = .next t → ∀ a, Memory.read t.mem a = Memory.read s.mem a) ∧
  ∀ s t : State, MemoryInv s → step s = .next t → ∀ a,
    Memory.read t.mem a ≠ Memory.read s.mem a →
      ∃ addr byte, nextTurn s = .platformWrite addr byte ∧ a = addr.toNat ∧ Memory.read t.mem a = byte

/-- A message read returns the byte held when no agent wrote its address during the hash, and otherwise the byte
held or one that it replaced; a racing write adds the byte it replaces to those, at its address only (R71). A write
at or above MSG_LEN, or while the engine is not busy, adds none. A step at another agent's turn is that write. The
record of the replaced bytes and the free draw from them are the model's (log entry 5). -/
def Obligations.RacingReadIsADraw : Prop :=
  (∀ (s : State) (n j : Nat), staleAt s j = [] → memRead s n j = Memory.read s.mem j) ∧
  (∀ (s : State) (n j : Nat), memRead s n j ∈ Memory.read s.mem j :: staleAt s j) ∧
  (∀ (s : State) (a : Word) (b : Byte), nextTurn s = .platformWrite a b →
    step s = .next (State.platformWrite { s with turns := s.turns.tail } a b)) ∧
  ∀ (s : State) (a : Word) (b : Byte), MemoryInv s →
    Memory.read (s.platformWrite a b).mem a.toNat = b ∧
    (∀ j, j ≠ a.toNat → Memory.read (s.platformWrite a b).mem j = Memory.read s.mem j ∧
      staleAt (s.platformWrite a b) j = staleAt s j) ∧
    (s.busy = true → a.toNat < s.msgLen.toNat →
      staleAt (s.platformWrite a b) a.toNat = Memory.read s.mem a.toNat :: staleAt s a.toNat) ∧
    (s.msgLen.toNat ≤ a.toNat → (s.platformWrite a b).stale = s.stale) ∧
    (s.busy = false → (s.platformWrite a b).stale = s.stale) ∧
    { s.platformWrite a b with mem := s.mem, stale := s.stale } = s

/-! ### Reset -/

/-- R45: the reset values, of the state after reset and after the reset event; every register index reads 0. -/
def Obligations.ResetValues : Prop :=
  ∀ s : State, s = State.reset ∨ (∃ u : State, s = u.assertReset) →
    s.state = .idle ∧ (∀ k : Fin 8, s.h[k] = 0) ∧ (∀ k : Fin 8, s.v[k] = 0) ∧ s.msgLen = 0 ∧
    (∀ k : Fin 80, s.ws[k] = 0) ∧ s.t = 0 ∧ s.blk = 0 ∧ s.nb = 0 ∧ s.var = .v32 ∧ s.noDigest = false ∧
    s.errCmd = false ∧ s.errBusy = false ∧ s.errInv = false ∧ ∀ r : BitVec 5, regValue s r = 0

/-- A step at which reset becomes active is the reset event, which leaves the message memory alone; its release
ends the hold and changes nothing else (log entry 10). While reset is held no transaction is performed: a write has
no effect, and a read changes the port's output only, whose value is free (R250; log entry 6); a poll goes by the
value it got. -/
def Obligations.HeldResetBlocksHost : Prop :=
  ∀ s : State,
    (nextTurn s = .resetOn → step s = .next (State.assertReset { s with turns := s.turns.tail })) ∧
    (s.assertReset.resetHeld = true ∧ s.assertReset.mem = s.mem ∧ s.assertReset.program = s.program ∧
      s.assertReset.cfg = s.cfg) ∧
    (nextTurn s = .resetOff → step s = .next { s with turns := s.turns.tail, resetHeld := false }) ∧
    (nextTurn s = .host → s.resetHeld = true →
      (∀ header wdata rest, s.program = .transaction header wdata :: rest → headerWE header = true →
        step s = .next { s with turns := s.turns.tail, program := rest }) ∧
      (∀ word rest, s.program = .command word :: rest →
        step s = .next { s with turns := s.turns.tail, program := rest }) ∧
      (∀ header wdata rest, s.program = .transaction header wdata :: rest → headerWE header = false →
        ∃ x n, step s = .next { s with turns := s.turns.tail, program := rest, rdata := x, fresh := n }) ∧
      (∀ reg mask value rest, s.program = .poll reg mask value :: rest →
        ∃ x n, step s = .next { s with
          turns := s.turns.tail, program := if x &&& mask = value then rest else s.program
          rdata := x, fresh := n }))

/-! ### Invariants -/

/-- The state after reset meets every invariant. -/
def Obligations.ResetMeetsInvariants : Prop :=
  SequencingInv State.reset ∧ NeverFaultInv State.reset ∧ ZeroExtensionInv State.reset ∧
  MessageReadsInv State.reset ∧ ResetHeldInv State.reset ∧ MemoryInv State.reset

/-- Every step keeps the ranges of T, BLK and NB, and the flags that go with a STATE (R27 to R29, R184, R224). -/
def Obligations.StepKeepsSequencing : Prop :=
  ∀ s t : State, SequencingInv s → step s = .next t → SequencingInv t

/-- No step enters FAULT or sets ERR_INV (R223: "unreachable"). -/
def Obligations.StepNeverEntersFault : Prop :=
  ∀ s t : State, NeverFaultInv s → step s = .next t → NeverFaultInv t

/-- Every step keeps the zero extension of what V32 steps write (R22). -/
def Obligations.StepKeepsZeroExtension : Prop :=
  ∀ s t : State, ZeroExtensionInv s → step s = .next t → ZeroExtensionInv t

/-- Every step keeps the record of message reads: each address of the loaded blocks below L once, in ascending
order, and no other (R62). -/
def Obligations.StepKeepsMessageReads : Prop :=
  ∀ s t : State, SequencingInv s → MessageReadsInv s → step s = .next t → MessageReadsInv t

/-- While reset is held the engine's state keeps its reset values (R250). -/
def Obligations.StepKeepsHeldReset : Prop :=
  ∀ s t : State, ResetHeldInv s → step s = .next t → ResetHeldInv t

/-- Every step keeps the canonical form of the message memory (log entry 4). -/
def Obligations.StepKeepsMemoryCanonical : Prop :=
  ∀ s t : State, MemoryInv s → step s = .next t → MemoryInv t

/-- The digest of a hash, as an invariant of steps (R208, with R140, R160 and R169): while a message is hashed H is
the chaining value before block BLK, Ws the block's schedule as far as computed and V the working variables after T
rounds, and in DONE H is the digest. Every step keeps it, whatever the interleaving, the host and the other agents
do, but for an ABORT, the reset event, another agent's write of a byte of the message during the hash, and a new
HASH after DONE. -/
def Obligations.StepKeepsDigest : Prop :=
  ∀ (v : Variant) (len : Nat) (msg : Nat → Byte) (s t : State),
    SequencingInv s → MessageReadsInv s → DigestInv v len msg s → step s = .next t →
    ¬takesCommand s 0x2 → nextTurn s ≠ .resetOn → ¬takesRacingWrite s →
    ¬(s.state = .done ∧ ∃ v', takesHash s v') → DigestInv v len msg t

/-! ### Arithmetic and padding -/

/-- R101: bit i of ROTR_W(n, x) is bit (i + n) mod W of x; zero and all-ones are fixed. -/
def Obligations.RotateRightBits : Prop :=
  ∀ (w : Nat) (n : Amount w) (x : BitVec w),
    rotr n x = (x >>> n.val) ||| (x <<< (w - n.val)) ∧
    (∀ i, i < w → (rotr n x).getLsbD i = x.getLsbD ((i + n.val) % w)) ∧
    rotr n (0 : BitVec w) = 0 ∧ rotr n (BitVec.allOnes w) = BitVec.allOnes w

/-- R102: SHR_W(n, x) is x divided by 2^n, and below 2^(W − n). -/
def Obligations.ShiftRightValue : Prop :=
  ∀ (w : Nat) (n : Amount w) (x : BitVec w),
    (shr n x).toNat = x.toNat / 2 ^ n.val ∧ (shr n x).toNat < 2 ^ (w - n.val)

/-- R161 and R164, bit by bit: Ch chooses, Maj is the majority. -/
def Obligations.ChooseAndMajorityBits : Prop :=
  ∀ (w : Nat) (x y z : BitVec w) (i : Nat), i < w →
    (ch x y z).getLsbD i = (if x.getLsbD i then y.getLsbD i else z.getLsbD i) ∧
    (maj x y z).getLsbD i =
      decide (2 ≤ (x.getLsbD i).toNat + (y.getLsbD i).toNat + (z.getLsbD i).toNat)

/-- The four sigma functions bit by bit, with the amounts of R105 (R141, R142, R162, R163): bit i of each is the
exclusive or of three bits of x, those of ROTR at (i + n) mod W and that of SHR at i + n, or 0 past the top. -/
def Obligations.SigmaFunctionBits : Prop :=
  (∀ (x : BitVec 32) (i : Nat), i < 32 →
    let rot := fun n => x.getLsbD ((i + n) % 32)
    let shift := fun n => x.getLsbD (i + n)
    (ssig0 .v32 x).getLsbD i = (rot 7 ^^ rot 18 ^^ shift 3) ∧
    (ssig1 .v32 x).getLsbD i = (rot 17 ^^ rot 19 ^^ shift 10) ∧
    (bsig0 .v32 x).getLsbD i = (rot 2 ^^ rot 13 ^^ rot 22) ∧
    (bsig1 .v32 x).getLsbD i = (rot 6 ^^ rot 11 ^^ rot 25)) ∧
  ∀ (x : BitVec 64) (i : Nat), i < 64 →
    let rot := fun n => x.getLsbD ((i + n) % 64)
    let shift := fun n => x.getLsbD (i + n)
    (ssig0 .v64 x).getLsbD i = (rot 1 ^^ rot 8 ^^ shift 7) ∧
    (ssig1 .v64 x).getLsbD i = (rot 19 ^^ rot 61 ^^ shift 6) ∧
    (bsig0 .v64 x).getLsbD i = (rot 28 ^^ rot 34 ^^ rot 39) ∧
    (bsig1 .v64 x).getLsbD i = (rot 14 ^^ rot 18 ^^ rot 41)

/-- R122: NB is the smallest number of blocks that holds the message, the 0x80 byte and the length field. -/
def Obligations.BlockCountIsLeast : Prop :=
  ∀ (v : Variant) (len : Nat),
    len + 1 + lengthBytes v ≤ numBlocks v len * blockBytes v ∧
    (∀ n, len + 1 + lengthBytes v ≤ n * blockBytes v → numBlocks v len ≤ n) ∧
    paddedBytes v len = numBlocks v len * blockBytes v ∧
    numBlocks .v32 len = (len + 72) / 64 ∧ numBlocks .v64 len = (len + 144) / 128

/-- The padded message (R121, R124, R127): the message, 0x80, zeros, and last the bit length modulo 2^(8F), big-endian in
F bytes. -/
def Obligations.PaddedMessageBytes : Prop :=
  ∀ (v : Variant) (len : Nat) (msg : Nat → Byte),
    (∀ j, j < len → padByte v len msg j = msg j) ∧
    padByte v len msg len = 0x80 ∧
    (∀ j, len < j → j < paddedBytes v len - lengthBytes v → padByte v len msg j = 0x00) ∧
    ((List.range (lengthBytes v)).map fun i =>
        (padByte v len msg (paddedBytes v len - lengthBytes v + i)).toNat * 256 ^ (lengthBytes v - 1 - i)).sum
      = 8 * len % 2 ^ (8 * lengthBytes v)

/-- R66: byte n of the serialized digest is the n-th byte, big-endian, of the words DIGEST0..7 taken as W-bit
words. -/
def Obligations.SerializedDigestBigEndian : Prop :=
  ∀ (s : State) (n : Nat) (hn : n / wordBytes s.var < 8),
    (digestByte s n).toNat =
      (lowWord s.var s.h[n / wordBytes s.var]).toNat / 256 ^ (wordBytes s.var - 1 - n % wordBytes s.var) % 256

/-! ### Runs -/

/-- Under V32 an engine step does not depend on bits 63:32 of H, V and Ws (R22): from two states that differ in
those bits only, the low halves agree again after the step, and everything else is equal. -/
def Obligations.V32IgnoresUpperHalves : Prop :=
  ∀ (s s' : State) (t t' : State), s.var = .v32 →
    { s' with h := s.h, v := s.v, ws := s.ws } = s →
    (∀ k : Fin 8, lowWord .v32 s'.h[k] = lowWord .v32 s.h[k]) →
    (∀ k : Fin 8, lowWord .v32 s'.v[k] = lowWord .v32 s.v[k]) →
    (∀ k : Fin 80, lowWord .v32 s'.ws[k] = lowWord .v32 s.ws[k]) →
    engineStep s = .next t → engineStep s' = .next t' →
    { t' with h := t.h, v := t.v, ws := t.ws } = t ∧
    (∀ k : Fin 8, lowWord .v32 t'.h[k] = lowWord .v32 t.h[k]) ∧
    (∀ k : Fin 8, lowWord .v32 t'.v[k] = lowWord .v32 t.v[k]) ∧
    (∀ k : Fin 80, lowWord .v32 t'.ws[k] = lowWord .v32 t.ws[k])

/-- After the LOAD step of a block and the N − 16 EXPAND steps that follow, Ws[t] = S[t] for every t < N (R140),
with the message stable. V is what LOAD left there: the zero-extended W-bit words of H, which is R22 read over
R201's V[k] <- H[k] (log entry 9, DEDUCED); under V64, or where bits 63:32 of H are zero, that is H itself.
A block with BLK at or above NB, which no run loads, is padded as log entry 15 chooses (a DESIGN CHOICE). -/
def Obligations.ExpandStepsGiveSchedule : Prop :=
  ∀ s : State, s.state = .load → s.turns = [] → s.stale = [] →
    ∃ t, run (1 + (rounds s.var - 16)) s = .next t ∧ t.state = .round ∧ t.t = 0 ∧
      (∀ k : Fin 80, k.val < rounds s.var → t.ws[k] = zext64 ((schedule s.var
        (blockWords s.var s.msgLen.toNat (Memory.read s.mem) s.blk.toNat)).getD k.val 0)) ∧
      (∀ k : Fin 8, t.v[k] = zext64 (lowWord s.var s.h[k])) ∧ t.h = s.h

/-- The steps of one block compute `compress` of the chaining value and the block's schedule (R160).
A block with BLK at or above NB, which no run loads, is padded as log entry 15 chooses (a DESIGN CHOICE). -/
def Obligations.BlockStepsCompress : Prop :=
  ∀ s : State, s.state = .load → s.turns = [] → s.stale = [] →
    ∃ t, run (blockSteps s.var) s = .next t ∧
      (∀ k : Fin 8, t.h[k] = zext64 (compress s.var (Vector.ofFn fun k => lowWord s.var s.h[k])
        (schedule s.var (blockWords s.var s.msgLen.toNat (Memory.read s.mem) s.blk.toNat)))[k]) ∧
      t.blk = s.blk + 1 ∧ t.state = (if s.blk.toNat + 1 = s.nb.toNat then .done else .load) ∧ t.t = 0

/-- R207: from PAD to DONE the engine takes exactly 1 + NB · (2 + (N − 16) + N) steps, whatever the message
reads return; it is busy before. That is 1 + 114 · NB under V32 and 1 + 146 · NB under V64. Stated for the run in
which no other turn is listed; EngineStepCountsDown says it for every interleaving. -/
def Obligations.HashStepCount : Prop :=
  (∀ nb, hashSteps .v32 nb = 1 + 114 * nb ∧ hashSteps .v64 nb = 1 + 146 * nb) ∧
  ∀ s : State, s.state = .pad → s.blk = 0 → s.turns = [] →
    (∃ t, run (hashSteps s.var (numBlocks s.var s.msgLen.toNat)) s = .next t ∧ t.state = .done) ∧
    ∀ n, n < hashSteps s.var (numBlocks s.var s.msgLen.toNat) →
      ∃ t, run n s = .next t ∧ t.busy = true

/-- R207 in every interleaving: each engine step of a hash lowers the number of steps still needed by one, no other
step changes that number but ABORT and reset, and it is 0 exactly when the engine is not busy. -/
def Obligations.EngineStepCountsDown : Prop :=
  (∀ s : State, SequencingInv s → (remainingSteps s = 0 ↔ s.busy = false)) ∧
  ∀ s t : State, SequencingInv s → s.busy = true → step s = .next t →
    (nextTurn s = .engine → remainingSteps t + 1 = remainingSteps s) ∧
    (nextTurn s ≠ .engine →
      remainingSteps t = remainingSteps s ∨
        (t.state = .idle ∧ (takesCommand s 0x2 ∨ nextTurn s = .resetOn)))

/-- The step that takes an accepted HASH begins the hash of the message then in memory (R184, R208, R72): the
invariants of the digest and of the message reads hold, and the steps still needed are those of R207. In the LEGACY
empty case it ends at once with no digest (R209). The two records are the model's own (log entries 5 and 8). -/
def Obligations.HashBeginsItsDigest : Prop :=
  ∀ (v : Variant) (s t : State), takesHash s v → s.state ∈ [.idle, .done] → step s = .next t →
    (s.msgLen = 0 ∧ s.cfg.emptyPolicy = .legacy →
      t.state = .done ∧ t.noDigest = true ∧ (∀ k : Fin 8, t.h[k] = 0) ∧ hashResult v t = none) ∧
    (¬(s.msgLen = 0 ∧ s.cfg.emptyPolicy = .legacy) →
      t.state = .pad ∧ DigestInv v s.len (Memory.read s.mem) t ∧ MessageReadsInv t ∧
        remainingSteps t = hashSteps v (numBlocks v s.len))

/-- R209: the source's call returns no digest exactly when NO_DIGEST = 1; after a hash that has ended in DONE it
returns the digest of its message, which DIGEST0..DIGEST7 read zero-extended (R36). -/
def Obligations.EndedHashReturnsDigest : Prop :=
  (∀ (v : Variant) (s : State), hashResult v s = none ↔ s.noDigest = true) ∧
  (∀ s : State, sha256Result s = hashResult .v32 s ∧ sha512Result s = hashResult .v64 s) ∧
  ∀ (v : Variant) (len : Nat) (msg : Nat → Byte) (s : State), DigestInv v len msg s → s.state = .done →
    digestValid s = true ∧ hashResult v s = some (digest v len msg) ∧
    ∀ k : Fin 8, regValue s (BitVec.ofNat 5 (8 + k.val)) = zext64 (digest v len msg)[k]

/-- R210: a run has ended when the host has nothing more to issue and STATE is quiescent. It stays ended, and a step
then changes nothing but the message memory, by another agent's write, and the reset input, unless it is the reset
event. A run with STATE busy has not ended. -/
def Obligations.EndedRunStaysEnded : Prop :=
  (∀ s : State, runEnded s = true ↔ s.program = [] ∧ s.state ∈ [.idle, .done, .fault]) ∧
  ∀ s t : State, runEnded s = true → step s = .next t → runEnded t = true ∧
    (nextTurn s ≠ .resetOn → { t with turns := s.turns, mem := s.mem, resetHeld := s.resetHeld } = s)

/-- R208 as a run: an accepted HASH of a message that no agent writes ends in DONE; in the LEGACY empty case with no
digest and H = 0, otherwise with the digest in H, NB = BLKCNT the block count, and every message address read once.
Stated for the run in which the host issues the HASH and nothing more and no other turn is listed; StepKeepsDigest,
with HashBeginsItsDigest and EngineStepCountsDown, says it for every program and interleaving. -/
def Obligations.HashResult : Prop :=
  ∀ (s : State) (c : Word) (v : Variant), (c = 0x1 ∧ v = .v32 ∨ c = 0x11 ∧ v = .v64) →
    s.state ∈ [.idle, .done] → s.resetHeld = false → s.program = [.transaction 0x20 c] → s.turns = [] →
    (s.msgLen = 0 ∧ s.cfg.emptyPolicy = .legacy →
      ∃ t, run 1 s = .next t ∧ runEnded t = true ∧ t.state = .done ∧ t.noDigest = true ∧
        ∀ k : Fin 8, t.h[k] = 0) ∧
    (¬(s.msgLen = 0 ∧ s.cfg.emptyPolicy = .legacy) →
      ∃ t, run (1 + hashSteps v (numBlocks v s.msgLen.toNat)) s = .next t ∧ runEnded t = true ∧ t.state = .done ∧
        t.noDigest = false ∧ t.var = v ∧ t.nb.toNat = numBlocks v s.msgLen.toNat ∧ t.blk = t.nb ∧
        t.msgReads = List.range s.msgLen.toNat ∧
        ∀ k : Fin 8, t.h[k] = zext64 (digest v s.msgLen.toNat (Memory.read s.mem))[k])

/-- The host's `wait` on a running hash ends, with BUSY = 0 read (R265), in every fair run: whatever turns are
listed, of the host, the engine or another agent's writes, before the fair rule of an empty list takes over. A fair
infinite run has such a list as its beginning (log entry 1). -/
def Obligations.WaitTerminates : Prop :=
  ∀ s : State, SequencingInv s → s.resetHeld = false → s.program = assemble [.wait] →
    .resetOn ∉ s.turns →
    ∃ n t, run n s = .next t ∧ t.program = [] ∧ t.busy = false ∧ t.rdata.getLsbD 0 = false
end

