-- ==== Sys2Proof/Laws/Memory.lean ====
section
/-! SUPPORT. The laws of the message memory: a write keeps the canonical form, reading after a write, and
canonical memories that read alike are equal. -/

namespace Sys2Proof.Machine

theorem Memory.wf_cons (c : Host.Cell) (rest : Memory) :
    Memory.wf (c :: rest) = true ↔
      c.1 < 2 ^ 64 ∧ c.2 ≠ unlistedByte ∧ (∀ d, rest.head? = some d → c.1 < d.1) ∧ Memory.wf rest = true := by
  cases rest <;> simp [Memory.wf, and_assoc]

/-- In a canonical memory every later address is larger. -/
theorem Memory.wf_lt {c : Host.Cell} {rest : Memory} (h : Memory.wf (c :: rest) = true) :
    ∀ d ∈ rest, c.1 < d.1 := by
  induction rest generalizing c with
  | nil => simp
  | cons e rest ih =>
    obtain ⟨-, -, hlt, hrest⟩ := (Memory.wf_cons c _).1 h
    have he : c.1 < e.1 := hlt e rfl
    intro d hd
    rcases List.mem_cons.1 hd with rfl | hd
    · exact he
    · exact he.trans (ih hrest d hd)

/-- An address that no entry names reads as an unlisted one. -/
theorem Memory.read_of_forall_ne {m : Memory} {a : Nat} (h : ∀ d ∈ m, d.1 ≠ a) :
    Memory.read m a = unlistedByte := by
  induction m with
  | nil => rfl
  | cons c rest ih =>
    simp only [Memory.read, if_neg (h c (List.mem_cons_self ..))]
    exact ih fun d hd => h d (List.mem_cons_of_mem _ hd)

theorem Memory.read_cell_append (a : Nat) (b : Byte) (m : Memory) (x : Nat)
    (hm : ∀ d ∈ m, d.1 ≠ a) :
    Memory.read (Memory.cell a b ++ m) x = if x = a then b else Memory.read m x := by
  by_cases hb : b = unlistedByte
  · by_cases hx : x = a
    · subst hx; simp [Memory.cell, hb, Memory.read_of_forall_ne hm]
    · simp [Memory.cell, hb, hx]
  · by_cases hx : x = a
    · simp [Memory.cell, hb, Memory.read, hx]
    · simp [Memory.cell, hb, Memory.read, hx, Ne.symm hx]

/-- Reading after a write: the byte written at its address, and every other byte as before. -/
theorem Memory.read_write {m : Memory} (hm : Memory.wf m = true) (a : Nat) (b : Byte) (x : Nat) :
    Memory.read (Memory.write m a b) x = if x = a then b else Memory.read m x := by
  induction m with
  | nil => simpa [Memory.write] using Memory.read_cell_append a b [] x (by simp)
  | cons c rest ih =>
    have hlt := Memory.wf_lt hm
    have hrest := ((Memory.wf_cons c rest).1 hm).2.2.2
    rcases Nat.lt_trichotomy a c.1 with h | h | h
    · rw [Memory.write, if_pos h]
      refine Memory.read_cell_append a b (c :: rest) x fun d hd => ?_
      rcases List.mem_cons.1 hd with rfl | hd
      · omega
      · have := hlt d hd; omega
    · rw [Memory.write, if_neg (by omega), if_pos h,
        Memory.read_cell_append a b rest x fun d hd => by have := hlt d hd; omega]
      by_cases hx : x = a
      · simp [hx]
      · simp [hx, Memory.read, ← h, Ne.symm hx]
    · rw [Memory.write, if_neg (by omega), if_neg (by omega)]
      by_cases hx : c.1 = x
      · have : x ≠ a := by omega
        simp [Memory.read, hx, this]
      · simp [Memory.read, hx, ih hrest]

/-- A write leaves every other address alone, whatever the form of the list. -/
theorem Memory.read_write_of_ne (m : Memory) {a x : Nat} (b : Byte) (h : x ≠ a) :
    Memory.read (Memory.write m a b) x = Memory.read m x := by
  have hcell : ∀ r : Memory, Memory.read (Memory.cell a b ++ r) x = Memory.read r x := by
    intro r
    unfold Memory.cell
    split <;> simp [Memory.read, Ne.symm h]
  induction m with
  | nil => simpa [Memory.write] using hcell []
  | cons c rest ih =>
    simp only [Memory.write]
    split
    · rw [hcell]
    · split
      · rename_i hac; rw [hcell]; simp [Memory.read, ← hac, Ne.symm h]
      · simp only [Memory.read, ih]

theorem Memory.wf_cell_append {a : Nat} {b : Byte} {m : Memory} (hm : Memory.wf m = true)
    (ha : a < 2 ^ 64) (hlt : ∀ d ∈ m, a < d.1) : Memory.wf (Memory.cell a b ++ m) = true := by
  by_cases hb : b = unlistedByte
  · simpa [Memory.cell, hb] using hm
  · simp only [Memory.cell, if_neg hb, List.cons_append, List.nil_append]
    exact (Memory.wf_cons _ _).2 ⟨ha, hb, fun d hd => hlt d (List.mem_of_mem_head? hd), hm⟩

/-- The addresses a write may list are the old ones and the written one. -/
theorem Memory.mem_write {m : Memory} {a : Nat} {b : Byte} {d : Host.Cell} (h : d ∈ Memory.write m a b) :
    d.1 = a ∨ d ∈ m := by
  induction m with
  | nil =>
    by_cases hb : b = unlistedByte <;> simp_all [Memory.write, Memory.cell]
  | cons c rest ih =>
    rw [Memory.write] at h
    split at h
    · by_cases hb : b = unlistedByte
      · simp_all [Memory.cell]
      · simp only [Memory.cell, if_neg hb, List.cons_append, List.nil_append, List.mem_cons] at h
        rcases h with rfl | h
        · exact .inl rfl
        · exact .inr (List.mem_cons.2 h)
    · split at h
      · by_cases hb : b = unlistedByte
        · simp_all [Memory.cell]
        · simp only [Memory.cell, if_neg hb, List.cons_append, List.nil_append, List.mem_cons] at h
          rcases h with rfl | h
          · exact .inl rfl
          · exact .inr (List.mem_cons_of_mem _ h)
      · rcases List.mem_cons.1 h with rfl | h
        · exact .inr (List.mem_cons_self ..)
        · exact (ih h).imp_right (List.mem_cons_of_mem _)

/-- A write keeps the canonical form. -/
theorem Memory.wf_write {m : Memory} (hm : Memory.wf m = true) {a : Nat} (ha : a < 2 ^ 64) (b : Byte) :
    Memory.wf (Memory.write m a b) = true := by
  induction m with
  | nil => simpa [Memory.write] using Memory.wf_cell_append (m := []) (b := b) rfl ha (by simp)
  | cons c rest ih =>
    have hlt := Memory.wf_lt hm
    obtain ⟨hc, hne, -, hrest⟩ := (Memory.wf_cons c rest).1 hm
    rw [Memory.write]
    split
    · refine Memory.wf_cell_append hm ha fun d hd => ?_
      rcases List.mem_cons.1 hd with rfl | hd
      · assumption
      · have := hlt d hd; omega
    · split
      · exact Memory.wf_cell_append hrest ha fun d hd => by have := hlt d hd; omega
      · refine (Memory.wf_cons _ _).2 ⟨hc, hne, fun d hd => ?_, ih hrest⟩
        rcases Memory.mem_write (List.mem_of_mem_head? hd) with h | h
        · omega
        · exact hlt d h

/-- Canonical memories that read alike at every address are equal data. -/
theorem Memory.ext_of_wf {m n : Memory} (hm : Memory.wf m = true) (hn : Memory.wf n = true)
    (h : ∀ a, Memory.read m a = Memory.read n a) : m = n := by
  induction m generalizing n with
  | nil =>
    cases n with
    | nil => rfl
    | cons d rest =>
      have := h d.1
      simp only [Memory.read, if_true] at this
      exact absurd this.symm ((Memory.wf_cons d rest).1 hn).2.1
  | cons c rest ih =>
    have hc := (Memory.wf_cons c rest).1 hm
    cases n with
    | nil =>
      have := h c.1
      simp only [Memory.read, if_true] at this
      exact absurd this hc.2.1
    | cons d more =>
      have hd := (Memory.wf_cons d more).1 hn
      have key : c.1 = d.1 := by
        rcases Nat.lt_trichotomy c.1 d.1 with hl | he | hl
        · have := h c.1
          rw [Memory.read, if_pos rfl, Memory.read_of_forall_ne (m := d :: more)] at this
          · exact absurd this hc.2.1
          · intro e he
            rcases List.mem_cons.1 he with rfl | he
            · omega
            · have := Memory.wf_lt hn e he; omega
        · exact he
        · have := h d.1
          rw [Memory.read_of_forall_ne (m := c :: rest), Memory.read, if_pos rfl] at this
          · exact absurd this.symm hd.2.1
          · intro e he
            rcases List.mem_cons.1 he with rfl | he
            · omega
            · have := Memory.wf_lt hm e he; omega
      have val : c.2 = d.2 := by
        have := h c.1
        simpa [Memory.read, key] using this
      have tail : rest = more := by
        refine ih hc.2.2.2 hd.2.2.2 fun a => ?_
        by_cases ha : a = c.1
        · rw [Memory.read_of_forall_ne, Memory.read_of_forall_ne]
          · intro e he; have := Memory.wf_lt hn e he; omega
          · intro e he; have := Memory.wf_lt hm e he; omega
        · have := h a
          simpa [Memory.read, Ne.symm ha, ← key] using this
      exact List.cons_eq_cons.2 ⟨Prod.ext key val, tail⟩

/-- The reset memory has the canonical form. -/
theorem Memory.wf_reset : Memory.wf State.reset.mem = true := rfl

/-- Without racing writes at its address, a message read returns the byte held (R71 (a)). -/
theorem memRead_of_staleAt_nil {s : State} {j : Nat} (h : staleAt s j = []) (n : Nat) :
    memRead s n j = Memory.read s.mem j := by
  rw [memRead, h]

/-- In a stable hash every message read returns the byte held (R71 (a)). -/
theorem memRead_of_stale_nil {s : State} (h : s.stale = []) (n j : Nat) :
    memRead s n j = Memory.read s.mem j :=
  memRead_of_staleAt_nil (by simp [staleAt, h]) n

/-- In a stable hash the machine's padded bytes are those of the message held (R121). -/
theorem machinePadByte_of_stale_nil {s : State} (h : s.stale = []) :
    machinePadByte s = padByte s.var s.len (Memory.read s.mem) := by
  funext j
  simp [machinePadByte, padByte, memRead_of_stale_nil h]

end Sys2Proof.Machine
end

