-- ==== Sys2Proof/Laws/State.lean ====
section
/-! SUPPORT. One lemma per field per unconditional update of the state, and one case lemma for each
conditional one: no later proof unfolds a record update. -/

namespace Sys2Proof.Machine

/-! ### signalErrCmd -/

@[simp] theorem State.signalErrCmd_state (s : State) : s.signalErrCmd.state = s.state := rfl
@[simp] theorem State.signalErrCmd_h (s : State) : s.signalErrCmd.h = s.h := rfl
@[simp] theorem State.signalErrCmd_v (s : State) : s.signalErrCmd.v = s.v := rfl
@[simp] theorem State.signalErrCmd_msgLen (s : State) : s.signalErrCmd.msgLen = s.msgLen := rfl
@[simp] theorem State.signalErrCmd_ws (s : State) : s.signalErrCmd.ws = s.ws := rfl
@[simp] theorem State.signalErrCmd_t (s : State) : s.signalErrCmd.t = s.t := rfl
@[simp] theorem State.signalErrCmd_blk (s : State) : s.signalErrCmd.blk = s.blk := rfl
@[simp] theorem State.signalErrCmd_nb (s : State) : s.signalErrCmd.nb = s.nb := rfl
@[simp] theorem State.signalErrCmd_var (s : State) : s.signalErrCmd.var = s.var := rfl
@[simp] theorem State.signalErrCmd_noDigest (s : State) : s.signalErrCmd.noDigest = s.noDigest := rfl
@[simp] theorem State.signalErrCmd_errCmd (s : State) : s.signalErrCmd.errCmd = true := rfl
@[simp] theorem State.signalErrCmd_errBusy (s : State) : s.signalErrCmd.errBusy = s.errBusy := rfl
@[simp] theorem State.signalErrCmd_errInv (s : State) : s.signalErrCmd.errInv = s.errInv := rfl
@[simp] theorem State.signalErrCmd_mem (s : State) : s.signalErrCmd.mem = s.mem := rfl
@[simp] theorem State.signalErrCmd_resetHeld (s : State) : s.signalErrCmd.resetHeld = s.resetHeld := rfl
@[simp] theorem State.signalErrCmd_program (s : State) : s.signalErrCmd.program = s.program := rfl
@[simp] theorem State.signalErrCmd_turns (s : State) : s.signalErrCmd.turns = s.turns := rfl
@[simp] theorem State.signalErrCmd_rdata (s : State) : s.signalErrCmd.rdata = s.rdata := rfl
@[simp] theorem State.signalErrCmd_stale (s : State) : s.signalErrCmd.stale = s.stale := rfl
@[simp] theorem State.signalErrCmd_msgReads (s : State) : s.signalErrCmd.msgReads = s.msgReads := rfl
@[simp] theorem State.signalErrCmd_fresh (s : State) : s.signalErrCmd.fresh = s.fresh := rfl
@[simp] theorem State.signalErrCmd_cfg (s : State) : s.signalErrCmd.cfg = s.cfg := rfl

/-! ### signalErrBusy -/

@[simp] theorem State.signalErrBusy_state (s : State) : s.signalErrBusy.state = s.state := rfl
@[simp] theorem State.signalErrBusy_h (s : State) : s.signalErrBusy.h = s.h := rfl
@[simp] theorem State.signalErrBusy_v (s : State) : s.signalErrBusy.v = s.v := rfl
@[simp] theorem State.signalErrBusy_msgLen (s : State) : s.signalErrBusy.msgLen = s.msgLen := rfl
@[simp] theorem State.signalErrBusy_ws (s : State) : s.signalErrBusy.ws = s.ws := rfl
@[simp] theorem State.signalErrBusy_t (s : State) : s.signalErrBusy.t = s.t := rfl
@[simp] theorem State.signalErrBusy_blk (s : State) : s.signalErrBusy.blk = s.blk := rfl
@[simp] theorem State.signalErrBusy_nb (s : State) : s.signalErrBusy.nb = s.nb := rfl
@[simp] theorem State.signalErrBusy_var (s : State) : s.signalErrBusy.var = s.var := rfl
@[simp] theorem State.signalErrBusy_noDigest (s : State) : s.signalErrBusy.noDigest = s.noDigest := rfl
@[simp] theorem State.signalErrBusy_errCmd (s : State) : s.signalErrBusy.errCmd = s.errCmd := rfl
@[simp] theorem State.signalErrBusy_errBusy (s : State) : s.signalErrBusy.errBusy = true := rfl
@[simp] theorem State.signalErrBusy_errInv (s : State) : s.signalErrBusy.errInv = s.errInv := rfl
@[simp] theorem State.signalErrBusy_mem (s : State) : s.signalErrBusy.mem = s.mem := rfl
@[simp] theorem State.signalErrBusy_resetHeld (s : State) : s.signalErrBusy.resetHeld = s.resetHeld := rfl
@[simp] theorem State.signalErrBusy_program (s : State) : s.signalErrBusy.program = s.program := rfl
@[simp] theorem State.signalErrBusy_turns (s : State) : s.signalErrBusy.turns = s.turns := rfl
@[simp] theorem State.signalErrBusy_rdata (s : State) : s.signalErrBusy.rdata = s.rdata := rfl
@[simp] theorem State.signalErrBusy_stale (s : State) : s.signalErrBusy.stale = s.stale := rfl
@[simp] theorem State.signalErrBusy_msgReads (s : State) : s.signalErrBusy.msgReads = s.msgReads := rfl
@[simp] theorem State.signalErrBusy_fresh (s : State) : s.signalErrBusy.fresh = s.fresh := rfl
@[simp] theorem State.signalErrBusy_cfg (s : State) : s.signalErrBusy.cfg = s.cfg := rfl

/-! ### abortHash -/

@[simp] theorem State.abortHash_state (s : State) : s.abortHash.state = .idle := rfl
@[simp] theorem State.abortHash_h (s : State) : s.abortHash.h = s.h := rfl
@[simp] theorem State.abortHash_v (s : State) : s.abortHash.v = s.v := rfl
@[simp] theorem State.abortHash_msgLen (s : State) : s.abortHash.msgLen = s.msgLen := rfl
@[simp] theorem State.abortHash_ws (s : State) : s.abortHash.ws = s.ws := rfl
@[simp] theorem State.abortHash_t (s : State) : s.abortHash.t = 0 := rfl
@[simp] theorem State.abortHash_blk (s : State) : s.abortHash.blk = s.blk := rfl
@[simp] theorem State.abortHash_nb (s : State) : s.abortHash.nb = s.nb := rfl
@[simp] theorem State.abortHash_var (s : State) : s.abortHash.var = s.var := rfl
@[simp] theorem State.abortHash_noDigest (s : State) : s.abortHash.noDigest = false := rfl
@[simp] theorem State.abortHash_errCmd (s : State) : s.abortHash.errCmd = false := rfl
@[simp] theorem State.abortHash_errBusy (s : State) : s.abortHash.errBusy = false := rfl
@[simp] theorem State.abortHash_errInv (s : State) : s.abortHash.errInv = false := rfl
@[simp] theorem State.abortHash_mem (s : State) : s.abortHash.mem = s.mem := rfl
@[simp] theorem State.abortHash_resetHeld (s : State) : s.abortHash.resetHeld = s.resetHeld := rfl
@[simp] theorem State.abortHash_program (s : State) : s.abortHash.program = s.program := rfl
@[simp] theorem State.abortHash_turns (s : State) : s.abortHash.turns = s.turns := rfl
@[simp] theorem State.abortHash_rdata (s : State) : s.abortHash.rdata = s.rdata := rfl
@[simp] theorem State.abortHash_stale (s : State) : s.abortHash.stale = s.stale := rfl
@[simp] theorem State.abortHash_msgReads (s : State) : s.abortHash.msgReads = s.msgReads := rfl
@[simp] theorem State.abortHash_fresh (s : State) : s.abortHash.fresh = s.fresh := rfl
@[simp] theorem State.abortHash_cfg (s : State) : s.abortHash.cfg = s.cfg := rfl

/-! ### enterFault -/

@[simp] theorem State.enterFault_state (s : State) (n : Nat) : (s.enterFault n).state = .fault := rfl
@[simp] theorem State.enterFault_h (s : State) (n : Nat) : (s.enterFault n).h = s.h := rfl
@[simp] theorem State.enterFault_v (s : State) (n : Nat) : (s.enterFault n).v = s.v := rfl
@[simp] theorem State.enterFault_msgLen (s : State) (n : Nat) : (s.enterFault n).msgLen = s.msgLen := rfl
@[simp] theorem State.enterFault_ws (s : State) (n : Nat) : (s.enterFault n).ws = s.ws := rfl
@[simp] theorem State.enterFault_t (s : State) (n : Nat) : (s.enterFault n).t = s.t := rfl
@[simp] theorem State.enterFault_blk (s : State) (n : Nat) : (s.enterFault n).blk = s.blk := rfl
@[simp] theorem State.enterFault_nb (s : State) (n : Nat) : (s.enterFault n).nb = BitVec.ofNat 64 n := rfl
@[simp] theorem State.enterFault_var (s : State) (n : Nat) : (s.enterFault n).var = s.var := rfl
@[simp] theorem State.enterFault_noDigest (s : State) (n : Nat) : (s.enterFault n).noDigest = s.noDigest := rfl
@[simp] theorem State.enterFault_errCmd (s : State) (n : Nat) : (s.enterFault n).errCmd = s.errCmd := rfl
@[simp] theorem State.enterFault_errBusy (s : State) (n : Nat) : (s.enterFault n).errBusy = s.errBusy := rfl
@[simp] theorem State.enterFault_errInv (s : State) (n : Nat) : (s.enterFault n).errInv = true := rfl
@[simp] theorem State.enterFault_mem (s : State) (n : Nat) : (s.enterFault n).mem = s.mem := rfl
@[simp] theorem State.enterFault_resetHeld (s : State) (n : Nat) : (s.enterFault n).resetHeld = s.resetHeld := rfl
@[simp] theorem State.enterFault_program (s : State) (n : Nat) : (s.enterFault n).program = s.program := rfl
@[simp] theorem State.enterFault_turns (s : State) (n : Nat) : (s.enterFault n).turns = s.turns := rfl
@[simp] theorem State.enterFault_rdata (s : State) (n : Nat) : (s.enterFault n).rdata = s.rdata := rfl
@[simp] theorem State.enterFault_stale (s : State) (n : Nat) : (s.enterFault n).stale = s.stale := rfl
@[simp] theorem State.enterFault_msgReads (s : State) (n : Nat) : (s.enterFault n).msgReads = s.msgReads := rfl
@[simp] theorem State.enterFault_fresh (s : State) (n : Nat) : (s.enterFault n).fresh = s.fresh := rfl
@[simp] theorem State.enterFault_cfg (s : State) (n : Nat) : (s.enterFault n).cfg = s.cfg := rfl

/-! ### assertReset -/

@[simp] theorem State.assertReset_state (s : State) : s.assertReset.state = .idle := rfl
@[simp] theorem State.assertReset_h (s : State) : s.assertReset.h = Vector.replicate 8 0 := rfl
@[simp] theorem State.assertReset_v (s : State) : s.assertReset.v = Vector.replicate 8 0 := rfl
@[simp] theorem State.assertReset_msgLen (s : State) : s.assertReset.msgLen = 0 := rfl
@[simp] theorem State.assertReset_ws (s : State) : s.assertReset.ws = Vector.replicate 80 0 := rfl
@[simp] theorem State.assertReset_t (s : State) : s.assertReset.t = 0 := rfl
@[simp] theorem State.assertReset_blk (s : State) : s.assertReset.blk = 0 := rfl
@[simp] theorem State.assertReset_nb (s : State) : s.assertReset.nb = 0 := rfl
@[simp] theorem State.assertReset_var (s : State) : s.assertReset.var = .v32 := rfl
@[simp] theorem State.assertReset_noDigest (s : State) : s.assertReset.noDigest = false := rfl
@[simp] theorem State.assertReset_errCmd (s : State) : s.assertReset.errCmd = false := rfl
@[simp] theorem State.assertReset_errBusy (s : State) : s.assertReset.errBusy = false := rfl
@[simp] theorem State.assertReset_errInv (s : State) : s.assertReset.errInv = false := rfl
@[simp] theorem State.assertReset_mem (s : State) : s.assertReset.mem = s.mem := rfl
@[simp] theorem State.assertReset_resetHeld (s : State) : s.assertReset.resetHeld = true := rfl
@[simp] theorem State.assertReset_program (s : State) : s.assertReset.program = s.program := rfl
@[simp] theorem State.assertReset_turns (s : State) : s.assertReset.turns = s.turns := rfl
@[simp] theorem State.assertReset_rdata (s : State) : s.assertReset.rdata = s.rdata := rfl
@[simp] theorem State.assertReset_stale (s : State) : s.assertReset.stale = s.stale := rfl
@[simp] theorem State.assertReset_msgReads (s : State) : s.assertReset.msgReads = s.msgReads := rfl
@[simp] theorem State.assertReset_fresh (s : State) : s.assertReset.fresh = s.fresh := rfl
@[simp] theorem State.assertReset_cfg (s : State) : s.assertReset.cfg = s.cfg := rfl

/-! ### releaseReset -/

@[simp] theorem State.releaseReset_state (s : State) : s.releaseReset.state = s.state := rfl
@[simp] theorem State.releaseReset_h (s : State) : s.releaseReset.h = s.h := rfl
@[simp] theorem State.releaseReset_v (s : State) : s.releaseReset.v = s.v := rfl
@[simp] theorem State.releaseReset_msgLen (s : State) : s.releaseReset.msgLen = s.msgLen := rfl
@[simp] theorem State.releaseReset_ws (s : State) : s.releaseReset.ws = s.ws := rfl
@[simp] theorem State.releaseReset_t (s : State) : s.releaseReset.t = s.t := rfl
@[simp] theorem State.releaseReset_blk (s : State) : s.releaseReset.blk = s.blk := rfl
@[simp] theorem State.releaseReset_nb (s : State) : s.releaseReset.nb = s.nb := rfl
@[simp] theorem State.releaseReset_var (s : State) : s.releaseReset.var = s.var := rfl
@[simp] theorem State.releaseReset_noDigest (s : State) : s.releaseReset.noDigest = s.noDigest := rfl
@[simp] theorem State.releaseReset_errCmd (s : State) : s.releaseReset.errCmd = s.errCmd := rfl
@[simp] theorem State.releaseReset_errBusy (s : State) : s.releaseReset.errBusy = s.errBusy := rfl
@[simp] theorem State.releaseReset_errInv (s : State) : s.releaseReset.errInv = s.errInv := rfl
@[simp] theorem State.releaseReset_mem (s : State) : s.releaseReset.mem = s.mem := rfl
@[simp] theorem State.releaseReset_resetHeld (s : State) : s.releaseReset.resetHeld = false := rfl
@[simp] theorem State.releaseReset_program (s : State) : s.releaseReset.program = s.program := rfl
@[simp] theorem State.releaseReset_turns (s : State) : s.releaseReset.turns = s.turns := rfl
@[simp] theorem State.releaseReset_rdata (s : State) : s.releaseReset.rdata = s.rdata := rfl
@[simp] theorem State.releaseReset_stale (s : State) : s.releaseReset.stale = s.stale := rfl
@[simp] theorem State.releaseReset_msgReads (s : State) : s.releaseReset.msgReads = s.msgReads := rfl
@[simp] theorem State.releaseReset_fresh (s : State) : s.releaseReset.fresh = s.fresh := rfl
@[simp] theorem State.releaseReset_cfg (s : State) : s.releaseReset.cfg = s.cfg := rfl

/-! ### platformWrite -/

@[simp] theorem State.platformWrite_state (s : State) (a : Word) (b : Byte) : (s.platformWrite a b).state = s.state := rfl
@[simp] theorem State.platformWrite_h (s : State) (a : Word) (b : Byte) : (s.platformWrite a b).h = s.h := rfl
@[simp] theorem State.platformWrite_v (s : State) (a : Word) (b : Byte) : (s.platformWrite a b).v = s.v := rfl
@[simp] theorem State.platformWrite_msgLen (s : State) (a : Word) (b : Byte) : (s.platformWrite a b).msgLen = s.msgLen := rfl
@[simp] theorem State.platformWrite_ws (s : State) (a : Word) (b : Byte) : (s.platformWrite a b).ws = s.ws := rfl
@[simp] theorem State.platformWrite_t (s : State) (a : Word) (b : Byte) : (s.platformWrite a b).t = s.t := rfl
@[simp] theorem State.platformWrite_blk (s : State) (a : Word) (b : Byte) : (s.platformWrite a b).blk = s.blk := rfl
@[simp] theorem State.platformWrite_nb (s : State) (a : Word) (b : Byte) : (s.platformWrite a b).nb = s.nb := rfl
@[simp] theorem State.platformWrite_var (s : State) (a : Word) (b : Byte) : (s.platformWrite a b).var = s.var := rfl
@[simp] theorem State.platformWrite_noDigest (s : State) (a : Word) (b : Byte) : (s.platformWrite a b).noDigest = s.noDigest := rfl
@[simp] theorem State.platformWrite_errCmd (s : State) (a : Word) (b : Byte) : (s.platformWrite a b).errCmd = s.errCmd := rfl
@[simp] theorem State.platformWrite_errBusy (s : State) (a : Word) (b : Byte) : (s.platformWrite a b).errBusy = s.errBusy := rfl
@[simp] theorem State.platformWrite_errInv (s : State) (a : Word) (b : Byte) : (s.platformWrite a b).errInv = s.errInv := rfl
@[simp] theorem State.platformWrite_mem (s : State) (a : Word) (b : Byte) : (s.platformWrite a b).mem = Memory.write s.mem a.toNat b := rfl
@[simp] theorem State.platformWrite_resetHeld (s : State) (a : Word) (b : Byte) : (s.platformWrite a b).resetHeld = s.resetHeld := rfl
@[simp] theorem State.platformWrite_program (s : State) (a : Word) (b : Byte) : (s.platformWrite a b).program = s.program := rfl
@[simp] theorem State.platformWrite_turns (s : State) (a : Word) (b : Byte) : (s.platformWrite a b).turns = s.turns := rfl
@[simp] theorem State.platformWrite_rdata (s : State) (a : Word) (b : Byte) : (s.platformWrite a b).rdata = s.rdata := rfl
@[simp] theorem State.platformWrite_msgReads (s : State) (a : Word) (b : Byte) : (s.platformWrite a b).msgReads = s.msgReads := rfl
@[simp] theorem State.platformWrite_fresh (s : State) (a : Word) (b : Byte) : (s.platformWrite a b).fresh = s.fresh := rfl
@[simp] theorem State.platformWrite_cfg (s : State) (a : Word) (b : Byte) : (s.platformWrite a b).cfg = s.cfg := rfl

/-! ### advance -/

@[simp] theorem State.advance_last {s : State} (h : s.t.toNat = rounds s.var - 1) (next : FsmState) :
    s.advance next = { s with t := 0, state := next } := if_pos h

@[simp] theorem State.advance_more {s : State} (h : s.t.toNat ≠ rounds s.var - 1) (next : FsmState) :
    s.advance next = { s with t := s.t + 1 } := if_neg h

@[simp] theorem State.advance_h (s : State) (next : FsmState) : (s.advance next).h = s.h := by
  unfold State.advance; split <;> rfl
@[simp] theorem State.advance_v (s : State) (next : FsmState) : (s.advance next).v = s.v := by
  unfold State.advance; split <;> rfl
@[simp] theorem State.advance_msgLen (s : State) (next : FsmState) : (s.advance next).msgLen = s.msgLen := by
  unfold State.advance; split <;> rfl
@[simp] theorem State.advance_ws (s : State) (next : FsmState) : (s.advance next).ws = s.ws := by
  unfold State.advance; split <;> rfl
@[simp] theorem State.advance_blk (s : State) (next : FsmState) : (s.advance next).blk = s.blk := by
  unfold State.advance; split <;> rfl
@[simp] theorem State.advance_nb (s : State) (next : FsmState) : (s.advance next).nb = s.nb := by
  unfold State.advance; split <;> rfl
@[simp] theorem State.advance_var (s : State) (next : FsmState) : (s.advance next).var = s.var := by
  unfold State.advance; split <;> rfl
@[simp] theorem State.advance_noDigest (s : State) (next : FsmState) : (s.advance next).noDigest = s.noDigest := by
  unfold State.advance; split <;> rfl
@[simp] theorem State.advance_errCmd (s : State) (next : FsmState) : (s.advance next).errCmd = s.errCmd := by
  unfold State.advance; split <;> rfl
@[simp] theorem State.advance_errBusy (s : State) (next : FsmState) : (s.advance next).errBusy = s.errBusy := by
  unfold State.advance; split <;> rfl
@[simp] theorem State.advance_errInv (s : State) (next : FsmState) : (s.advance next).errInv = s.errInv := by
  unfold State.advance; split <;> rfl
@[simp] theorem State.advance_mem (s : State) (next : FsmState) : (s.advance next).mem = s.mem := by
  unfold State.advance; split <;> rfl
@[simp] theorem State.advance_resetHeld (s : State) (next : FsmState) : (s.advance next).resetHeld = s.resetHeld := by
  unfold State.advance; split <;> rfl
@[simp] theorem State.advance_program (s : State) (next : FsmState) : (s.advance next).program = s.program := by
  unfold State.advance; split <;> rfl
@[simp] theorem State.advance_turns (s : State) (next : FsmState) : (s.advance next).turns = s.turns := by
  unfold State.advance; split <;> rfl
@[simp] theorem State.advance_rdata (s : State) (next : FsmState) : (s.advance next).rdata = s.rdata := by
  unfold State.advance; split <;> rfl
@[simp] theorem State.advance_stale (s : State) (next : FsmState) : (s.advance next).stale = s.stale := by
  unfold State.advance; split <;> rfl
@[simp] theorem State.advance_msgReads (s : State) (next : FsmState) : (s.advance next).msgReads = s.msgReads := by
  unfold State.advance; split <;> rfl
@[simp] theorem State.advance_fresh (s : State) (next : FsmState) : (s.advance next).fresh = s.fresh := by
  unfold State.advance; split <;> rfl
@[simp] theorem State.advance_cfg (s : State) (next : FsmState) : (s.advance next).cfg = s.cfg := by
  unfold State.advance; split <;> rfl

theorem State.advance_t (s : State) (next : FsmState) :
    (s.advance next).t = if s.t.toNat = rounds s.var - 1 then 0 else s.t + 1 := by
  unfold State.advance; split <;> rfl

theorem State.advance_state (s : State) (next : FsmState) :
    (s.advance next).state = if s.t.toNat = rounds s.var - 1 then next else s.state := by
  unfold State.advance; split <;> rfl

/-! ### popTurn -/

@[simp] theorem State.popTurn_state (s : State) : s.popTurn.state = s.state := rfl
@[simp] theorem State.popTurn_h (s : State) : s.popTurn.h = s.h := rfl
@[simp] theorem State.popTurn_v (s : State) : s.popTurn.v = s.v := rfl
@[simp] theorem State.popTurn_msgLen (s : State) : s.popTurn.msgLen = s.msgLen := rfl
@[simp] theorem State.popTurn_ws (s : State) : s.popTurn.ws = s.ws := rfl
@[simp] theorem State.popTurn_t (s : State) : s.popTurn.t = s.t := rfl
@[simp] theorem State.popTurn_blk (s : State) : s.popTurn.blk = s.blk := rfl
@[simp] theorem State.popTurn_nb (s : State) : s.popTurn.nb = s.nb := rfl
@[simp] theorem State.popTurn_var (s : State) : s.popTurn.var = s.var := rfl
@[simp] theorem State.popTurn_noDigest (s : State) : s.popTurn.noDigest = s.noDigest := rfl
@[simp] theorem State.popTurn_errCmd (s : State) : s.popTurn.errCmd = s.errCmd := rfl
@[simp] theorem State.popTurn_errBusy (s : State) : s.popTurn.errBusy = s.errBusy := rfl
@[simp] theorem State.popTurn_errInv (s : State) : s.popTurn.errInv = s.errInv := rfl
@[simp] theorem State.popTurn_mem (s : State) : s.popTurn.mem = s.mem := rfl
@[simp] theorem State.popTurn_resetHeld (s : State) : s.popTurn.resetHeld = s.resetHeld := rfl
@[simp] theorem State.popTurn_program (s : State) : s.popTurn.program = s.program := rfl
@[simp] theorem State.popTurn_rdata (s : State) : s.popTurn.rdata = s.rdata := rfl
@[simp] theorem State.popTurn_stale (s : State) : s.popTurn.stale = s.stale := rfl
@[simp] theorem State.popTurn_msgReads (s : State) : s.popTurn.msgReads = s.msgReads := rfl
@[simp] theorem State.popTurn_fresh (s : State) : s.popTurn.fresh = s.fresh := rfl
@[simp] theorem State.popTurn_cfg (s : State) : s.popTurn.cfg = s.cfg := rfl
@[simp] theorem State.popTurn_turns (s : State) : s.popTurn.turns = s.turns.tail := rfl

/-! ### The conditional operations -/

/-- Everything a HASH command can do (R184): rejected, ended at once, or started. -/
theorem State.startHash_cases (s : State) (v : Variant) :
    ((s.busy = true ∨ s.state = .fault) ∧ s.startHash v = s.signalErrBusy) ∨
    (s.busy = false ∧ s.state ≠ .fault ∧ s.msgLen = 0 ∧ s.cfg.emptyPolicy = .legacy ∧
      s.startHash v = { s with
        var := v, errCmd := false, errBusy := false, t := 0, blk := 0, nb := 0, stale := [], msgReads := []
        h := Vector.replicate 8 0, noDigest := true, state := .done }) ∨
    (s.busy = false ∧ s.state ≠ .fault ∧ ¬(s.msgLen = 0 ∧ s.cfg.emptyPolicy = .legacy) ∧
      s.startHash v = { s with
        var := v, errCmd := false, errBusy := false, t := 0, blk := 0, nb := 0, stale := [], msgReads := []
        noDigest := false, state := .pad }) := by
  unfold State.startHash
  by_cases hb : s.busy = true
  · exact .inl ⟨.inl hb, by simp [hb]⟩
  · by_cases hf : s.state = .fault
    · exact .inl ⟨.inr hf, by simp [hf]⟩
    · have hb' : s.busy = false := by simpa using hb
      by_cases he : s.msgLen = 0 ∧ s.cfg.emptyPolicy = .legacy
      · exact .inr (.inl ⟨hb', hf, he.1, he.2, by simp [hb', hf, he]⟩)
      · exact .inr (.inr ⟨hb', hf, he, by simpa [hb', hf] using he⟩)

/-- Everything a write to CMD can do (R180, R226). -/
theorem State.runCommand_cases (s : State) (c : Word) :
    (cmdLegal c = false ∧ s.runCommand c = s.signalErrCmd) ∨
    (cmdLegal c = true ∧ cmdOp c = 0x0 ∧ s.runCommand c = s) ∨
    (cmdLegal c = true ∧ cmdOp c = 0x1 ∧ s.runCommand c = s.startHash (variantOf (cmdV c))) ∨
    (cmdLegal c = true ∧ cmdOp c ≠ 0x0 ∧ cmdOp c ≠ 0x1 ∧ s.runCommand c = s.abortHash) := by
  unfold State.runCommand
  by_cases hl : cmdLegal c = true
  · by_cases h0 : cmdOp c = 0x0
    · exact .inr (.inl ⟨hl, h0, by simp [hl, h0]⟩)
    · by_cases h1 : cmdOp c = 0x1
      · exact .inr (.inr (.inl ⟨hl, h1, by simp [hl, h1]⟩))
      · exact .inr (.inr (.inr ⟨hl, h0, h1, by simp only [hl, Bool.not_true, Bool.false_eq_true, if_false, if_neg h0, if_neg h1]⟩))
  · exact .inl ⟨by simpa using hl, by simp [hl]⟩

/-- A poll's read ends the statement or leaves the poll the host's next statement (R89). -/
theorem State.afterPoll_cases (s : State) (reg : BitVec 5) (mask value : Word) :
    (s.rdata &&& mask = value ∧ s.afterPoll reg mask value = s) ∨
    (s.rdata &&& mask ≠ value ∧
      s.afterPoll reg mask value = { s with program := .poll reg mask value :: s.program }) := by
  by_cases h : s.rdata &&& mask = value
  · exact .inl ⟨h, if_pos h⟩
  · exact .inr ⟨h, if_neg h⟩

/-- While reset is held a transaction changes at most the port's output (R250). -/
theorem State.heldTransaction_cases (s : State) (e : Encoded) :
    s.heldTransaction e = s ∨
    s.heldTransaction e = { s with rdata := Config.heldRead s.fresh, fresh := s.fresh + 1 } := by
  cases e with
  | host header wdata =>
    by_cases h : headerWE header = true <;> simp [State.heldTransaction, h]
  | command word => exact .inl rfl
  | stateCode code => exact .inl rfl

end Sys2Proof.Machine
end

