-- ==== Sys2Proof/Laws/Exec.lean ====
section
/-! SUPPORT. What each instruction does, one equation per constructor; what a step does with each kind of
input; the arithmetic of the padding that the PAD step needs. -/

namespace Sys2Proof.Machine

/-! ### One equation per instruction -/

@[simp] theorem exec_rd (ridx : BitVec 5) (s : State) :
    exec (.rd ridx) s = .next { s with rdata := regValue s ridx } := rfl
@[simp] theorem exec_wrCmd (c : Word) (s : State) : exec (.wrCmd c) s = .next (s.runCommand c) := rfl
@[simp] theorem exec_wrStatus (d : Word) (s : State) : exec (.wrStatus d) s = .next s := rfl
@[simp] theorem exec_wrMsgLen (d : Word) (s : State) :
    exec (.wrMsgLen d) s = .next (if s.busy then s.signalErrBusy else { s with msgLen := d }) := rfl
@[simp] theorem exec_wrNblk (d : Word) (s : State) : exec (.wrNblk d) s = .next s := rfl
@[simp] theorem exec_wrBlkcntRsv (l : BitVec 2) (d : Word) (s : State) :
    exec (.wrBlkcntRsv l d) s = .next s := rfl
@[simp] theorem exec_wrDigest (k : BitVec 3) (d : Word) (s : State) : exec (.wrDigest k d) s = .next s := rfl
@[simp] theorem exec_wrWvRsv (l : BitVec 4) (d : Word) (s : State) : exec (.wrWvRsv l d) s = .next s := rfl
@[simp] theorem exec_nop (s : State) : exec .nop s = .next s := rfl
@[simp] theorem exec_hash256 (s : State) : exec .hash256 s = .next (s.startHash .v32) := rfl
@[simp] theorem exec_hash512 (s : State) : exec .hash512 s = .next (s.startHash .v64) := rfl
@[simp] theorem exec_abort (s : State) : exec .abort s = .next s.abortHash := rfl
@[simp] theorem exec_illegal (c : Word) (s : State) : exec (.illegal c) s = .next s.signalErrCmd := rfl
@[simp] theorem exec_noStepIdle (s : State) : exec .noStepIdle s = .next s := rfl
@[simp] theorem exec_noStepDone (s : State) : exec .noStepDone s = .next s := rfl
@[simp] theorem exec_noStepFault (s : State) : exec .noStepFault s = .next s := rfl

/-- A whole number of blocks is aligned, so the check of the PAD step holds for every count (R127). -/
theorem blockAligned_eq_true (v : Variant) (blocks : Nat) : blockAligned v blocks = true := by
  have h : 8 * blocks * blockBytes v = blocks * (8 * blockBytes v) := by
    rw [Nat.mul_comm 8 blocks, Nat.mul_assoc]
  simp [blockAligned, h]

/-- The PAD step never enters FAULT (R200, R223). -/
@[simp] theorem exec_stepPad (s : State) :
    exec .stepPad s = .next { s with
      nb := BitVec.ofNat 64 (numBlocks s.var s.len)
      h := Vector.ofFn fun k => zext64 (iv s.var)[k]
      state := .load } := by
  show Host.Outcome.next (padWith s _) = _
  simp [padWith, blockAligned_eq_true]

/-! ### One step -/

@[simp] theorem engineStep_idle {s : State} (h : s.state = .idle) : engineStep s = exec .noStepIdle s := by
  simp [engineStep, engineEncoded, h]; rfl
@[simp] theorem engineStep_pad {s : State} (h : s.state = .pad) : engineStep s = exec .stepPad s := by
  simp only [engineStep, engineEncoded, h]; rfl
@[simp] theorem engineStep_load {s : State} (h : s.state = .load) : engineStep s = exec .stepLoad s := by
  simp only [engineStep, engineEncoded, h]; rfl
@[simp] theorem engineStep_expand {s : State} (h : s.state = .expand) : engineStep s = exec .stepExpand s := by
  simp only [engineStep, engineEncoded, h]; rfl
@[simp] theorem engineStep_round {s : State} (h : s.state = .round) : engineStep s = exec .stepRound s := by
  simp only [engineStep, engineEncoded, h]; rfl
@[simp] theorem engineStep_fold {s : State} (h : s.state = .fold) : engineStep s = exec .stepFold s := by
  simp only [engineStep, engineEncoded, h]; rfl
@[simp] theorem engineStep_done {s : State} (h : s.state = .done) : engineStep s = exec .noStepDone s := by
  simp only [engineStep, engineEncoded, h]; rfl
@[simp] theorem engineStep_fault {s : State} (h : s.state = .fault) : engineStep s = exec .noStepFault s := by
  simp only [engineStep, engineEncoded, h]; rfl

theorem nextTurn_cons {s : State} {turn : Turn} {rest : List Turn} (h : s.turns = turn :: rest) :
    nextTurn s = turn := by simp [nextTurn, h]

/-- With no turn listed the engine moves while it is busy, and when the host has nothing left to issue (R265). -/
theorem nextTurn_nil {s : State} (h : s.turns = []) :
    nextTurn s = if s.busy = true ∨ s.program = [] then .engine else .host := by
  simp [nextTurn, h]

theorem step_of_turn {s : State} {turn : Turn} (h : nextTurn s = turn) : step s = turnStep turn s.popTurn := by
  rw [step, h]

theorem hostTurn_nil {s : State} (h : s.program = []) : hostTurn s = .next s := by rw [hostTurn, h]

theorem hostTurn_cons {s : State} {op : HostOp} {rest : List HostOp} (h : s.program = op :: rest) :
    hostTurn s = opStep op { s with program := rest } := by rw [hostTurn, h]

@[simp] theorem run_zero (s : State) : run 0 s = .next s := rfl

theorem run_succ_of_next {s t : State} (h : step s = .next t) (n : Nat) : run (n + 1) s = run n t := by
  have h' : Sys2Proof.core.step s = .next t := h
  simp only [run, Host.Core.run, h']; rfl

/-! ### Block counts -/

theorem numBlocks_pos (v : Variant) (len : Nat) : 0 < numBlocks v len := by
  cases v <;> simp only [numBlocks, lengthBytes, blockBytes] <;> omega

/-- NB fits in 64 bits for every MSG_LEN (R29). -/
theorem numBlocks_lt (v : Variant) {len : Nat} (h : len < 2 ^ 64) : numBlocks v len < 2 ^ 64 := by
  cases v <;> simp only [numBlocks, lengthBytes, blockBytes] <;> omega

theorem len_lt (s : State) : s.len < 2 ^ 64 := s.msgLen.isLt

end Sys2Proof.Machine
end

