-- ==== Sys2Proof/Laws/Datapath.lean ====
section
/-! SUPPORT. Small lemmas of the datapath functions: words in 64-bit registers, padded bytes, and the schedule as a
list that only grows. -/

namespace Sys2Proof.Machine

/-- Reading a zero-extended word back gives the word (R22). -/
@[simp] theorem lowWord_zext64 {v : Variant} (x : BitVec (width v)) : lowWord v (zext64 x) = x := by
  cases v <;>
    (apply BitVec.eq_of_toNat_eq; have := x.isLt; simp [lowWord, zext64, width] at *; try omega)

@[simp] theorem getElem_zextWords {w : Nat} (x : Vector (BitVec w) 8) (k : Nat) (hk : k < 8) :
    (zextWords x)[k] = zext64 x[k] := by simp [zextWords]

/-- PB takes message bytes below L only (R121). -/
theorem padByte_congr {v : Variant} {len : Nat} {msg msg' : Nat → Byte} (h : ∀ j, j < len → msg j = msg' j) :
    padByte v len msg = padByte v len msg' := by
  funext j
  unfold padByte
  split
  · exact h _ ‹_›
  · rfl

@[simp] theorem blockWords_length (v : Variant) (len : Nat) (msg : Nat → Byte) (i : Nat) :
    (blockWords v len msg i).length = 16 := by simp [blockWords]

theorem schedulePrefix_length {v : Variant} {block : List (BitVec (width v))} (hb : block.length = 16) (n : Nat) :
    (schedulePrefix v block n).length = 16 + n := by
  induction n with
  | zero => simpa [schedulePrefix]
  | succ n ih => simp [schedulePrefix, extendSchedule, ih]; omega

/-- Extending the schedule leaves its entries alone (R145). -/
theorem schedulePrefix_getD {v : Variant} {block : List (BitVec (width v))} (hb : block.length = 16) {n m k : Nat}
    (hk : k < 16 + n) (hnm : n ≤ m) :
    (schedulePrefix v block m).getD k 0 = (schedulePrefix v block n).getD k 0 := by
  induction m, hnm using Nat.le_induction with
  | base => rfl
  | succ m hm ih =>
    rw [← ih]
    have hl := schedulePrefix_length (v := v) hb m
    simp [schedulePrefix, extendSchedule, List.getD,
      List.getElem?_append_left (by omega : k < (schedulePrefix v block m).length)]

/-- Entries 0 to 15 of a block's schedule are its words (R143). -/
theorem blockSchedule_getD_block {v : Variant} {len : Nat} {msg : Nat → Byte} {i k : Nat} (hk : k < 16) :
    (blockSchedule v len msg i).getD k 0 = blockWord v len msg i k := by
  unfold blockSchedule schedule
  rw [schedulePrefix_getD (n := 0) (by simp) (by omega) (by omega)]
  simp [schedulePrefix, blockWords, List.getD, hk]

/-- The schedule satisfies its recurrence (R144). -/
theorem schedule_getD_step {v : Variant} {block : List (BitVec (width v))} (hb : block.length = 16) {t : Nat}
    (h16 : 16 ≤ t) (hN : t < rounds v) :
    (schedule v block).getD t 0 = schedWord v ((schedule v block).getD (t - 2) 0)
      ((schedule v block).getD (t - 7) 0) ((schedule v block).getD (t - 15) 0)
      ((schedule v block).getD (t - 16) 0) := by
  obtain ⟨n, rfl⟩ : ∃ n, t = 16 + n := ⟨t - 16, by omega⟩
  have hl := schedulePrefix_length (v := v) hb n
  have hback : ∀ k, k < 16 + n → (schedule v block).getD k 0 = (schedulePrefix v block n).getD k 0 :=
    fun k hk => schedulePrefix_getD hb hk (by omega)
  rw [hback (16 + n - 2) (by omega), hback (16 + n - 7) (by omega), hback (16 + n - 15) (by omega),
    hback (16 + n - 16) (by omega), schedule, schedulePrefix_getD (n := n + 1) hb (by omega) (by omega)]
  simp only [schedulePrefix, extendSchedule, hl]
  rw [List.getD_append_right _ _ _ _ (by omega)]
  simp [hl]

/-- One more round (R166, R167). -/
theorem roundsDone_succ {v : Variant} {n : Nat} (hn : n < rounds v) (s : List (BitVec (width v)))
    (x : Vector (BitVec (width v)) 8) :
    roundsDone v s x (n + 1) = roundWords v (roundsDone v s x n) (kConst v n hn) (s.getD n 0) := by
  rw [roundsDone, dif_pos hn]

end Sys2Proof.Machine
end

