-- ==== Sys2Proof/Laws/PerInstr.lean ====
section
/-! SUPPORT. A law stated per instruction: the encoding of every instruction is a value that its row of
spec/opcode_table.json matches, `(v & mask) = match`. -/

namespace Sys2Proof.Laws.TableRow

/-- The format, mask and match of an instruction's row of the opcode table. -/
def row : Instr → Format × Nat × Nat
  | .rd _ => (.host, 0x20, 0x00)
  | .wrCmd _ => (.host, 0x3F, 0x20)
  | .wrStatus _ => (.host, 0x3F, 0x21)
  | .wrMsgLen _ => (.host, 0x3F, 0x22)
  | .wrNblk _ => (.host, 0x3F, 0x23)
  | .wrBlkcntRsv _ _ => (.host, 0x3C, 0x24)
  | .wrDigest _ _ => (.host, 0x38, 0x28)
  | .wrWvRsv _ _ => (.host, 0x30, 0x30)
  | .nop => (.cmd, 0xFFFFFFFFFFFFFFFF, 0x0)
  | .hash256 => (.cmd, 0xFFFFFFFFFFFFFFFF, 0x1)
  | .hash512 => (.cmd, 0xFFFFFFFFFFFFFFFF, 0x11)
  | .abort => (.cmd, 0xFFFFFFFFFFFFFFFF, 0x2)
  | .illegal _ => (.cmd, 0x0, 0x0)
  | .noStepIdle => (.stateCode, 0x7, 0x0)
  | .stepPad => (.stateCode, 0x7, 0x1)
  | .stepLoad => (.stateCode, 0x7, 0x2)
  | .stepExpand => (.stateCode, 0x7, 0x3)
  | .stepRound => (.stateCode, 0x7, 0x4)
  | .stepFold => (.stateCode, 0x7, 0x5)
  | .noStepDone => (.stateCode, 0x7, 0x6)
  | .noStepFault => (.stateCode, 0x7, 0x7)

/-- The part of an encoding that the opcode table describes, as format and number. -/
def tablePart : Encoded → Format × Nat
  | .host header _ => (.host, header.toNat)
  | .command word => (.cmd, word.toNat)
  | .stateCode code => (.stateCode, code.toNat)

/-- The instruction's encoding lies in its row. -/
def Statement (i : Instr) : Prop :=
  (tablePart (encode i)).1 = (row i).1 ∧ (tablePart (encode i)).2 &&& (row i).2.1 = (row i).2.2

theorem rd (ridx : BitVec 5) : Statement (.rd ridx) := by
  revert ridx; unfold Statement; decide
theorem wrCmd (wdata : Word) : Statement (.wrCmd wdata) :=
  ⟨rfl, show (mkHeader true 0).toNat &&& 0x3F = 0x20 by decide⟩
theorem wrStatus (wdata : Word) : Statement (.wrStatus wdata) :=
  ⟨rfl, show (mkHeader true 1).toNat &&& 0x3F = 0x21 by decide⟩
theorem wrMsgLen (wdata : Word) : Statement (.wrMsgLen wdata) :=
  ⟨rfl, show (mkHeader true 2).toNat &&& 0x3F = 0x22 by decide⟩
theorem wrNblk (wdata : Word) : Statement (.wrNblk wdata) :=
  ⟨rfl, show (mkHeader true 3).toNat &&& 0x3F = 0x23 by decide⟩
theorem wrBlkcntRsv (low : BitVec 2) (wdata : Word) : Statement (.wrBlkcntRsv low wdata) := by
  refine ⟨rfl, ?_⟩
  show (mkHeader true ((1 : BitVec 3) ++ low)).toNat &&& 0x3C = 0x24
  revert low; decide
theorem wrDigest (k : BitVec 3) (wdata : Word) : Statement (.wrDigest k wdata) := by
  refine ⟨rfl, ?_⟩
  show (mkHeader true ((1 : BitVec 2) ++ k)).toNat &&& 0x38 = 0x28
  revert k; decide
theorem wrWvRsv (low : BitVec 4) (wdata : Word) : Statement (.wrWvRsv low wdata) := by
  refine ⟨rfl, ?_⟩
  show (mkHeader true ((1 : BitVec 1) ++ low)).toNat &&& 0x30 = 0x30
  revert low; decide
theorem nop : Statement .nop := ⟨rfl, rfl⟩
theorem hash256 : Statement .hash256 := ⟨rfl, rfl⟩
theorem hash512 : Statement .hash512 := ⟨rfl, rfl⟩
theorem abort : Statement .abort := ⟨rfl, rfl⟩
theorem illegal (word : Word) : Statement (.illegal word) := ⟨rfl, by simp [row]⟩
theorem noStepIdle : Statement .noStepIdle := ⟨rfl, rfl⟩
theorem stepPad : Statement .stepPad := ⟨rfl, rfl⟩
theorem stepLoad : Statement .stepLoad := ⟨rfl, rfl⟩
theorem stepExpand : Statement .stepExpand := ⟨rfl, rfl⟩
theorem stepRound : Statement .stepRound := ⟨rfl, rfl⟩
theorem stepFold : Statement .stepFold := ⟨rfl, rfl⟩
theorem noStepDone : Statement .noStepDone := ⟨rfl, rfl⟩
theorem noStepFault : Statement .noStepFault := ⟨rfl, rfl⟩

end Sys2Proof.Laws.TableRow
end

