-- ==== Sys2Proof/Laws/Step.lean ====
section
/-! SUPPORT. Inversion of a step: everything an engine step, a host transaction and a step of the machine can
do, said once. -/

namespace Sys2Proof.Machine

/-- Everything an engine step can do, by STATE (R87). -/
theorem engineStep_cases {s t : State} (h : engineStep s = .next t) :
    ((s.state = .idle ∨ s.state = .done ∨ s.state = .fault) ∧ t = s) ∨
    (s.state = .pad ∧ t = { s with
      nb := BitVec.ofNat 64 (numBlocks s.var s.len)
      h := Vector.ofFn fun k => zext64 (iv s.var)[k]
      state := .load }) ∨
    (s.state = .load ∧ exec .stepLoad s = .next t) ∨
    (s.state = .expand ∧ exec .stepExpand s = .next t) ∨
    (s.state = .round ∧ exec .stepRound s = .next t) ∨
    (s.state = .fold ∧ exec .stepFold s = .next t) := by
  cases hs : s.state with
  | idle => rw [engineStep_idle hs] at h; cases h; simp
  | pad => rw [engineStep_pad hs, exec_stepPad] at h; cases h; simp
  | load => rw [engineStep_load hs] at h; simp [h]
  | expand => rw [engineStep_expand hs] at h; simp [h]
  | round => rw [engineStep_round hs] at h; simp [h]
  | fold => rw [engineStep_fold hs] at h; simp [h]
  | done => rw [engineStep_done hs] at h; cases h; simp
  | fault => rw [engineStep_fault hs] at h; cases h; simp

/-- Everything a host transaction or a command word can do: a read, nothing, a MSG_LEN write, or a command, a command
word that matches no other row setting ERR_CMD (R84, R186). -/
theorem transaction_cases {e : Encoded} (he : ∀ c, e ≠ .stateCode c) {s t : State}
    (h : exec (decode e) s = .next t) :
    t = s ∨ (∃ ridx, t = { s with rdata := regValue s ridx }) ∨
    (s.busy = true ∧ t = s.signalErrBusy) ∨ (s.busy = false ∧ ∃ d, t = { s with msgLen := d }) ∨
    ∃ w, (e = .command w ∨ e = .host 0x20 w) ∧ (t = s.runCommand w ∨ t = s.signalErrCmd) := by
  cases e with
  | stateCode c => exact absurd rfl (he c)
  | command c =>
    have hc : t = s.runCommand c ∨ t = s.signalErrCmd := by
      simp only [decode, decodeCommand] at h
      split at h
      · subst_vars; cases h; exact .inl rfl
      · split at h
        · subst_vars; cases h; exact .inl rfl
        · split at h
          · subst_vars; cases h; exact .inl rfl
          · split at h
            · subst_vars; cases h; exact .inl rfl
            · cases h; exact .inr rfl
    exact .inr (.inr (.inr (.inr ⟨c, .inl rfl, hc⟩)))
  | host header d =>
    simp only [decode, decodeHost] at h
    split at h
    · cases h; exact .inr (.inl ⟨_, rfl⟩)
    · split at h
      · rename_i hh
        have hh : header = 0x20 := (by decide : ∀ x : BitVec 6, x &&& 0x3F = 0x20 → x = 0x20) _ hh
        rw [exec_wrCmd] at h
        injection h with h
        exact .inr (.inr (.inr (.inr ⟨d, .inr (by rw [hh]), .inl h.symm⟩)))
      · split at h
        · cases h; exact .inl rfl
        · split at h
          · rw [exec_wrMsgLen] at h
            injection h with h
            by_cases hb : s.busy = true
            · simp only [hb, if_true] at h; simp [← h, hb]
            · rw [if_neg hb] at h
              have hb : s.busy = false := by simpa using hb
              exact .inr (.inr (.inr (.inl ⟨hb, d, h.symm⟩)))
          · split at h
            · cases h; exact .inl rfl
            · split at h
              · cases h; exact .inl rfl
              · split at h <;> · cases h; exact .inl rfl

/-- A poll's read decodes to a read of its register. -/
theorem decode_pollEncoded (reg : BitVec 5) : decode (pollEncoded reg) = .rd reg := by
  revert reg; decide

/-- Everything a host-port transaction can do: at most the port's output changes (a read, an ignored write, anything
while reset is held), a MSG_LEN write is rejected or taken, or a command word runs. -/
theorem hostStep_cases {e : Encoded} (he : ∀ c, e ≠ .stateCode c) {s t : State} (h : hostStep e s = .next t) :
    (∃ r n, t = { s with rdata := r, fresh := n }) ∨
    s.resetHeld = false ∧
      ((s.busy = true ∧ t = s.signalErrBusy) ∨ (s.busy = false ∧ ∃ d, t = { s with msgLen := d }) ∨
      ∃ w, (e = .command w ∨ e = .host 0x20 w) ∧ (t = s.runCommand w ∨ t = s.signalErrCmd)) := by
  unfold hostStep at h
  by_cases hh : s.resetHeld = true
  · rw [if_pos hh] at h
    injection h with h
    rcases s.heldTransaction_cases e with hc | hc
    · exact .inl ⟨s.rdata, s.fresh, h.symm.trans hc⟩
    · exact .inl ⟨_, _, h.symm.trans hc⟩
  · rw [if_neg hh] at h
    have hr : s.resetHeld = false := by simpa using hh
    rcases transaction_cases he h with rfl | ⟨r, rfl⟩ | ⟨hb, rfl⟩ | ⟨hb, d, rfl⟩ | ⟨w, hw, ht⟩
    · exact .inl ⟨t.rdata, t.fresh, rfl⟩
    · exact .inl ⟨_, s.fresh, rfl⟩
    · exact .inr ⟨hr, .inl ⟨hb, rfl⟩⟩
    · exact .inr ⟨hr, .inr (.inl ⟨hb, d, rfl⟩)⟩
    · exact .inr ⟨hr, .inr (.inr ⟨w, hw, ht⟩)⟩

/-- A poll changes at most the port's output and the host's program (R89). -/
theorem pollStep_cases {reg : BitVec 5} {mask value : Word} {s t : State} (h : pollStep reg mask value s = .next t) :
    ∃ p r n, t = { s with program := p, rdata := r, fresh := n } := by
  have after : ∀ (u : State) r n, u = { s with rdata := r, fresh := n } →
      ∃ p r n, u.afterPoll reg mask value = { s with program := p, rdata := r, fresh := n } := by
    rintro u r n rfl
    rcases State.afterPoll_cases { s with rdata := r, fresh := n } reg mask value with
      ⟨-, hc⟩ | ⟨-, hc⟩ <;> exact ⟨_, _, _, hc⟩
  simp only [pollStep, hostStep] at h
  by_cases hh : s.resetHeld = true
  · rw [if_pos hh] at h
    injection h with h
    rw [← h]
    rcases s.heldTransaction_cases (pollEncoded reg) with hc | hc
    · exact after _ s.rdata s.fresh hc
    · exact after _ _ _ hc
  · rw [if_neg hh, decode_pollEncoded reg, exec_rd] at h
    injection h with h
    rw [← h]
    exact after _ _ s.fresh rfl

/-- Everything the host's turn can do: at most the port's output and the program change, a MSG_LEN write is rejected
or taken, or the command word that is next in the program runs. -/
theorem hostTurn_cases {s t : State} (h : hostTurn s = .next t) :
    (∃ p r n, t = { s with program := p, rdata := r, fresh := n }) ∨
    ∃ p, s.resetHeld = false ∧
      ((s.busy = true ∧ t = State.signalErrBusy { s with program := p }) ∨
      (s.busy = false ∧ ∃ d, t = { s with program := p, msgLen := d }) ∨
      ∃ w, (s.program.head? = some (.command w) ∨ s.program.head? = some (.transaction 0x20 w)) ∧
        (t = State.runCommand { s with program := p } w ∨ t = State.signalErrCmd { s with program := p })) := by
  cases hp : s.program with
  | nil => rw [hostTurn_nil hp] at h; cases h; exact .inl ⟨[], s.rdata, s.fresh, by rw [← hp]⟩
  | cons op rest =>
    rw [hostTurn_cons hp] at h
    cases op with
    | transaction a b =>
      rcases hostStep_cases (by simp) h with ⟨r, n, h⟩ | ⟨hr, h | h | ⟨w, hw, h⟩⟩
      · exact .inl ⟨rest, r, n, h⟩
      · exact .inr ⟨rest, hr, .inl h⟩
      · exact .inr ⟨rest, hr, .inr (.inl h)⟩
      · exact .inr ⟨rest, hr, .inr (.inr ⟨w, by simpa using hw, h⟩)⟩
    | command w =>
      rcases hostStep_cases (by simp) h with ⟨r, n, h⟩ | ⟨hr, h | h | ⟨w, hw, h⟩⟩
      · exact .inl ⟨rest, r, n, h⟩
      · exact .inr ⟨rest, hr, .inl h⟩
      · exact .inr ⟨rest, hr, .inr (.inl h)⟩
      · exact .inr ⟨rest, hr, .inr (.inr ⟨w, by simpa using hw, h⟩)⟩
    | poll reg mask value =>
      obtain ⟨p, r, n, h⟩ := pollStep_cases (s := { s with program := rest }) h
      exact .inl ⟨p, r, n, h⟩

/-- Everything a step can do, by whose turn it is. -/
theorem step_cases {s t : State} (h : step s = .next t) :
    (nextTurn s = .engine ∧ engineStep s.popTurn = .next t) ∨
    (nextTurn s = .host ∧ ((∃ p r n, t = { s.popTurn with program := p, rdata := r, fresh := n }) ∨
      ∃ p, s.resetHeld = false ∧
        ((s.busy = true ∧ t = State.signalErrBusy { s.popTurn with program := p }) ∨
        (s.busy = false ∧ ∃ d, t = { s.popTurn with program := p, msgLen := d }) ∨
        ∃ w, takesCommand s w ∧ (t = State.runCommand { s.popTurn with program := p } w ∨
          t = State.signalErrCmd { s.popTurn with program := p })))) ∨
    (∃ a b, nextTurn s = .platformWrite a b ∧ t = s.popTurn.platformWrite a b) ∨
    (nextTurn s = .resetOn ∧ t = s.popTurn.assertReset) ∨
    (nextTurn s = .resetOff ∧ t = s.popTurn.releaseReset) := by
  unfold step at h
  cases ht : nextTurn s with
  | engine => rw [ht] at h; exact .inl ⟨rfl, h⟩
  | host =>
    rw [ht] at h
    refine .inr (.inl ⟨rfl, ?_⟩)
    rcases hostTurn_cases h with h | ⟨p, hr, hb | hb | ⟨w, hw, h⟩⟩
    · exact .inl h
    · exact .inr ⟨p, hr, .inl hb⟩
    · exact .inr ⟨p, hr, .inr (.inl hb)⟩
    · exact .inr ⟨p, hr, .inr (.inr ⟨w, ⟨hr, hw.imp (⟨ht, ·⟩) (⟨ht, ·⟩)⟩, h⟩)⟩
  | platformWrite a b => rw [ht] at h; injection h with h; exact .inr (.inr (.inl ⟨a, b, rfl, h.symm⟩))
  | resetOn => rw [ht] at h; injection h with h; exact .inr (.inr (.inr (.inl ⟨rfl, h.symm⟩)))
  | resetOff => rw [ht] at h; injection h with h; exact .inr (.inr (.inr (.inr ⟨rfl, h.symm⟩)))

/-- A step that writes a command word to CMD: the WR_CMD row, or the word's own row. -/
theorem step_of_takesCommand {s : State} {w : Word} (h : takesCommand s w) :
    ∃ rest, s.program.tail = rest ∧
      (step s = exec (.wrCmd w) { s.popTurn with program := rest } ∨
        step s = exec (decode (.command w)) { s.popTurn with program := rest }) := by
  obtain ⟨hr, ⟨ht, hp⟩ | ⟨ht, hp⟩⟩ := h
  all_goals
    cases hpp : s.program with
    | nil => simp [hpp] at hp
    | cons op rest =>
      rw [hpp, List.head?_cons, Option.some.injEq] at hp
      subst hp
      refine ⟨rest, rfl, ?_⟩
      rw [step_of_turn ht, turnStep, hostTurn_cons (s := s.popTurn) hpp, opStep, hostStep,
        if_neg (by simp [hr])]
      first | exact .inr rfl | exact .inl rfl

/-- Preservation by every step, packaged once: a predicate that the step's parts keep is kept by the step. -/
theorem step_preserves {P : State → Prop}
    (agents : ∀ s p l, P s → P { s with program := p, turns := l })
    (port : ∀ s r n, P s → P { s with rdata := r, fresh := n })
    (engine : ∀ s t, P s → engineStep s = .next t → P t)
    (errCmd : ∀ s, P s → s.resetHeld = false → P s.signalErrCmd)
    (errBusy : ∀ s, P s → s.resetHeld = false → P s.signalErrBusy)
    (msgLen : ∀ s d, P s → s.resetHeld = false → s.busy = false → P { s with msgLen := d })
    (hash : ∀ s v, P s → s.resetHeld = false → P (s.startHash v))
    (abort : ∀ s, P s → s.resetHeld = false → P s.abortHash)
    (platform : ∀ s a b, P s → P (s.platformWrite a b))
    (reset : ∀ s, P s → P s.assertReset)
    (release : ∀ s, P s → P s.releaseReset)
    {s t : State} (hs : P s) (h : step s = .next t) : P t := by
  have hp : P s.popTurn := agents _ _ _ hs
  have hq : ∀ p, P { s.popTurn with program := p } := fun p => agents _ _ _ hp
  rcases step_cases h with ⟨-, h⟩ | ⟨-, ⟨p, r, n, rfl⟩ | ⟨p, hr, ⟨-, rfl⟩ | ⟨hb, d, rfl⟩ | ⟨w, -, rfl | rfl⟩⟩⟩ |
    ⟨a, b, -, rfl⟩ | ⟨-, rfl⟩ | ⟨-, rfl⟩
  · exact engine _ _ hp h
  · exact port _ _ _ (hq p)
  · exact errBusy _ (hq p) hr
  · exact msgLen _ _ (hq p) hr hb
  · rcases State.runCommand_cases { s.popTurn with program := p } w with
      ⟨-, hc⟩ | ⟨-, -, hc⟩ | ⟨-, -, hc⟩ | ⟨-, -, -, hc⟩ <;> rw [hc]
    · exact errCmd _ (hq p) hr
    · exact hq p
    · exact hash _ _ (hq p) hr
    · exact abort _ (hq p) hr
  · exact errCmd _ (hq p) hr
  · exact platform _ _ _ hp
  · exact reset _ hp
  · exact release _ hp

/-- The machine so that its very next step runs `e`, and that step: `exec` of what `e` decodes to. -/
theorem step_withEncoded (s : State) (e : Encoded) :
    step (s.withEncoded e) = exec (decode e) (match e with
      | .stateCode code => { s with state := FsmState.ofCode code }
      | _ => { s with resetHeld := false }) := by
  have hc : ∀ c : BitVec 3, (FsmState.ofCode c).code = c := by decide
  cases e with
  | host header d => rfl
  | command c => rfl
  | stateCode c =>
    show exec (decode (.stateCode (FsmState.ofCode c).code)) _ = _
    rw [hc]; rfl

end Sys2Proof.Machine
end

