-- ==== Sys2Proof/Tests/Slice0.lean ====
section
/-! SUPPORT. Small tests on fixed values. Every expected value is taken from the spec: the examples of
40_word_arithmetic.md to 44_driver.md and the vectors of 95_test_vectors.md (named in each comment). Last
come the witnesses that the hypotheses of the statements can be met. -/

namespace Sys2Proof.Tests

open Sys2Proof.Machine

/-! ### WellFormed -/

/-- A legal word is no ILLEGAL command (R84, R186). -/
theorem test_illFormed_legal_word : WellFormed (.illegal 0x11) = false := by decide
theorem test_wellFormed_illegal_word : WellFormed (.illegal 0x12) = true := by decide

/-! ### Decoding: one word for every constructor, written out from R80 to R87 -/

theorem test_decode_rd : decode (.host 0b010111 0) = .rd 23 := by decide
theorem test_decode_wrCmd : decode (.host 0b100000 0x11) = .wrCmd 0x11 := by decide
theorem test_decode_wrStatus : decode (.host 0b100001 0xFFFF) = .wrStatus 0xFFFF := by decide
theorem test_decode_wrMsgLen : decode (.host 0b100010 3) = .wrMsgLen 3 := by decide
theorem test_decode_wrNblk : decode (.host 0b100011 1) = .wrNblk 1 := by decide
theorem test_decode_wrBlkcnt : decode (.host 0b100100 1) = .wrBlkcntRsv 0 1 := by decide
theorem test_decode_wrReserved7 : decode (.host 0b100111 1) = .wrBlkcntRsv 3 1 := by decide
theorem test_decode_wrDigest : decode (.host 0b101101 5) = .wrDigest 5 5 := by decide
theorem test_decode_wrWv : decode (.host 0b110111 1) = .wrWvRsv 7 1 := by decide
theorem test_decode_wrReserved31 : decode (.host 0b111111 1) = .wrWvRsv 15 1 := by decide
theorem test_decode_nop : decode (.command 0b00000) = .nop := by decide
theorem test_decode_hash256 : decode (.command 0b00001) = .hash256 := by decide
theorem test_decode_hash512 : decode (.command 0b10001) = .hash512 := by decide
theorem test_decode_abort : decode (.command 0b00010) = .abort := by decide
/-- H15: OP = 2 with V = 1. -/
theorem test_decode_abort_with_v : decode (.command 0b10010) = .illegal 0x12 := by decide
/-- H18: RSV bit 63 set. -/
theorem test_decode_reserved_bit : decode (.command 0x8000000000000001) = .illegal 0x8000000000000001 := by decide
theorem test_decode_noStepIdle : decode (.stateCode 0b000) = .noStepIdle := by decide
theorem test_decode_stepPad : decode (.stateCode 0b001) = .stepPad := by decide
theorem test_decode_stepLoad : decode (.stateCode 0b010) = .stepLoad := by decide
theorem test_decode_stepExpand : decode (.stateCode 0b011) = .stepExpand := by decide
theorem test_decode_stepRound : decode (.stateCode 0b100) = .stepRound := by decide
theorem test_decode_stepFold : decode (.stateCode 0b101) = .stepFold := by decide
theorem test_decode_noStepDone : decode (.stateCode 0b110) = .noStepDone := by decide
theorem test_decode_noStepFault : decode (.stateCode 0b111) = .noStepFault := by decide
/-- A read is 6 bits long (R80). -/
theorem test_decodeRaw_read_too_long :
    decodeRaw .host (2 ^ 6 + 1) = .error .bitsBeyondTransaction := by decide
theorem test_tableWord_header : decodeTableWord 8 0x2D = some (.wrDigest 5 0) := by decide
theorem test_tableWord_state : decodeTableWord 8 0x4 = some .stepRound := by decide
/-- The table word of a row runs as the first step after reset. -/
theorem test_fetchWord_header : step (State.reset.withFetchWord 8 0x22) = .next State.reset := by rfl

/-! ### Word arithmetic (95_test_vectors.md section 2.1, 2.3, 2.4) -/

theorem test_rotr_32 : rotr (⟨13, by decide⟩ : Amount 32) 0x12345678 = 0xb3c091a2 := by decide
theorem test_rotr_64 : rotr (⟨28, by decide⟩ : Amount 64) 0x0123456789abcdef = 0x9abcdef012345678 := by decide
theorem test_shr_32 : shr (⟨3, by decide⟩ : Amount 32) 0x80000000 = 0x10000000 := by decide
theorem test_ssig0_v32 : ssig0 .v32 0x61626380 = (0x940e90ef : BitVec 32) := by decide
theorem test_ssig0_v64 : ssig0 .v64 0x6162638000000000 = (0x3012976480000000 : BitVec 64) := by decide
theorem test_ssig1_v32 : ssig1 .v32 0x61626380 = (0x7da86405 : BitVec 32) := by decide
theorem test_ssig1_v64 : ssig1 .v64 0x6162638000000000 = (0x0a9699a24c700003 : BitVec 64) := by decide
theorem test_bsig0_v32 : bsig0 .v32 0x61626380 = (0x8dd59276 : BitVec 32) := by decide
theorem test_bsig0_v64 : bsig0 .v64 0x6162638000000000 = (0x000000060ebc6427 : BitVec 64) := by decide
theorem test_bsig1_v32 : bsig1 .v32 0x61626380 = (0xc0b865f2 : BitVec 32) := by decide
theorem test_bsig1_v64 : bsig1 .v64 0x6162638000000000 = (0xc0019dd116d0b131 : BitVec 64) := by decide
theorem test_ch : ch (0xff00ff00 : BitVec 32) 0x12345678 0x9abcdef0 = 0x12bc56f0 := by decide
theorem test_maj : maj (0xff00ff00 : BitVec 32) 0x12345678 0x9abcdef0 = 0x9a34de70 := by decide
/-- R41: the first 32 bits of K64[t] equal K32[t] for t < 64. -/
theorem test_k64_extends_k32 : (k64.take 64).map (fun k => k.extractLsb' 32 32) = k32 := by decide

/-! ### Padding (95_test_vectors.md section 2.2) -/

theorem test_numBlocks_v32 : numBlocks .v32 55 = 1 ∧ numBlocks .v32 56 = 2 := by decide
theorem test_numBlocks_v64 : numBlocks .v64 111 = 1 ∧ numBlocks .v64 112 = 2 := by decide
/-- The largest MSG_LEN: P exceeds 2^64 (R125). -/
theorem test_padded_largest : paddedBytes .v32 0xffffffffffffffff = 0x10000000000000040 := by decide
/-- 8L = 2^64 wraps under V32 and not under V64 (R124). -/
theorem test_bitLength_wrap :
    bitLength .v32 0x2000000000000003 = 0x18 ∧ bitLength .v64 0xffffffffffffffff = 0x7fffffffffffffff8 := by decide
/-- V32, L = 56: bytes 126 and 127 of the padded message are 01 c0. -/
theorem test_padByte_length :
    padByte .v32 56 (fun _ => 0x61) 126 = 0x01 ∧ padByte .v32 56 (fun _ => 0x61) 127 = 0xc0 := by decide
theorem test_zeroPad : zeroPadBytes .v32 55 = 0 ∧ zeroPadBytes .v32 56 = 63 := by decide

/-! ### The message memory -/

theorem test_memory_order : Memory.write (Memory.write [] 5 1) 2 7 = [(2, 7), (5, 1)] := by decide
/-- Writing what an unlisted address reads as removes the entry. -/
theorem test_memory_canonical : Memory.write [(2, 7), (5, 1)] 2 0 = [(5, 1)] := by decide

/-! ### Host transactions and commands (95_test_vectors.md section 2.6) -/

/-- The STATUS after an instruction. -/
def statusAfter (i : Instr) (s : State) : Option Word :=
  match exec i s with
  | .next t => some (statusWord t)
  | .fault _ => none
  | .refused _ => none

/-- A property of the state after an instruction. -/
def holdsAfter (i : Instr) (s : State) (p : State → Bool) : Bool :=
  match exec i s with
  | .next t => p t
  | .fault _ => false
  | .refused _ => false

/-- "IDLE, MSG_LEN = 3". -/
def idle3 : State := { State.reset with msgLen := 3 }

/-- "busy V32 ROUND T = 5". -/
def busyRound5 : State := { idle3 with state := .round, t := 5 }

/-- "FAULT, VAR = 0 (premise)". -/
def inFault : State := { idle3 with state := .fault, errInv := true }

/-- DONE with a digest word. -/
def done3 : State := { idle3 with state := .done, h := Vector.replicate 8 0xba7816bf }

/-- H1, H29. -/
theorem test_rd_status : holdsAfter (.rd 1) done3 (fun t => t.rdata == 0x602 && statusWord t == 0x602) = true := by
  decide
/-- H2. -/
theorem test_rd_cmd : holdsAfter (.rd 0) busyRound5 (fun t => t.rdata == 0) = true := by decide
/-- H17. -/
theorem test_wrCmd_reserved_bit : statusAfter (.wrCmd 0x21) idle3 = some 0x10 := by decide
/-- H13. -/
theorem test_wrCmd_abort : statusAfter (.wrCmd 0x2) busyRound5 = some 0x0 := by decide
/-- H27. -/
theorem test_wrStatus : statusAfter (.wrStatus 0xFFFF) busyRound5 = some 0x5401 := by decide
/-- H11. -/
theorem test_wrMsgLen_busy : holdsAfter (.wrMsgLen 9) busyRound5
    (fun t => t.msgLen == 3 && statusWord t == 0x5421) = true := by decide
/-- H24. -/
theorem test_wrMsgLen_fault : holdsAfter (.wrMsgLen 5) inFault
    (fun t => t.msgLen == 5 && statusWord t == 0x740) = true := by decide
theorem test_wrNblk : holdsAfter (.wrNblk 7) done3 (fun t => t == done3) = true := by decide
theorem test_wrBlkcntRsv : holdsAfter (.wrBlkcntRsv 0 7) done3 (fun t => t == done3) = true := by decide
/-- H26. -/
theorem test_wrDigest : holdsAfter (.wrDigest 0 5) done3 (fun t => t.h[0] == 0xba7816bf) = true := by decide
/-- H28. -/
theorem test_wrWvRsv : holdsAfter (.wrWvRsv 15 1) busyRound5 (fun t => t == busyRound5) = true := by decide
/-- H20. -/
theorem test_nop : statusAfter .nop { idle3 with errCmd := true } = some 0x10 := by decide
/-- H3. -/
theorem test_hash256 : statusAfter .hash256 idle3 = some 0x101 := by decide
/-- H22. -/
theorem test_hash256_fault : statusAfter .hash256 inFault = some 0x760 := by decide
/-- H10. -/
theorem test_hash512_busy : statusAfter .hash512 busyRound5 = some 0x5421 := by decide
/-- H7. -/
theorem test_hash512_legacy : holdsAfter .hash512
    { State.reset with cfg := ⟨.legacy⟩, h := Vector.replicate 8 1 }
    (fun t => statusWord t == 0x60e && t.h[7] == 0) = true := by decide
/-- H23. -/
theorem test_abort_fault : statusAfter .abort { inFault with errBusy := true } = some 0x0 := by decide
/-- H14. -/
theorem test_illegal_busy : statusAfter (.illegal 0x3) busyRound5 = some 0x5411 := by decide

/-! ### Engine steps (95_test_vectors.md section 2.6, E1 to E14) -/

/-- V32 "abc" in PAD. -/
def padAbc : State := { idle3 with state := .pad, mem := [(0, 0x61), (1, 0x62), (2, 0x63)] }

/-- IV32 in 64-bit registers (R42). -/
def iv32Words : Vector Word 8 :=
  #v[0x6a09e667, 0xbb67ae85, 0x3c6ef372, 0xa54ff53a, 0x510e527f, 0x9b05688c, 0x1f83d9ab, 0x5be0cd19]

/-- V32 "abc" in LOAD. -/
def loadAbc : State := { padAbc with state := .load, nb := 1, h := iv32Words }

/-- V32 "abc" in EXPAND, T = 16, or in ROUND, T = 0. -/
def wsAbc : Vector Word 80 := ((Vector.replicate 80 0).set 0 0x61626380).set 15 0x18

/-- E1. -/
theorem test_stepPad : holdsAfter .stepPad padAbc
    (fun t => t.nb == 1 && t.h == iv32Words && t.state == .load) = true := by decide
/-- E3. -/
theorem test_stepPad_v64 : holdsAfter .stepPad { padAbc with var := .v64, msgLen := 112 }
    (fun t => t.nb == 2 && t.h[0] == 0x6a09e667f3bcc908) = true := by decide
/-- E5. -/
theorem test_stepLoad : holdsAfter .stepLoad loadAbc
    (fun t => t.ws[0] == 0x61626380 && t.ws[1] == 0 && t.ws[15] == 0x18 && t.v == iv32Words && t.t == 16
      && t.msgReads == [0, 1, 2]) = true := by decide
/-- E7. -/
theorem test_stepLoad_padding_only : holdsAfter .stepLoad { loadAbc with msgLen := 64, blk := 1, nb := 2 }
    (fun t => t.ws[0] == 0x80000000 && t.ws[14] == 0 && t.ws[15] == 0x200 && t.msgReads == []) = true := by decide
/-- E8. -/
theorem test_stepExpand : holdsAfter .stepExpand { loadAbc with state := .expand, t := 16, ws := wsAbc }
    (fun t => t.ws[16] == 0x61626380 && t.t == 17 && t.state == .expand) = true := by decide
/-- E9. -/
theorem test_stepExpand_last : holdsAfter .stepExpand { loadAbc with state := .expand, t := 63, ws := wsAbc }
    (fun t => t.t == 0 && t.state == .round) = true := by decide
/-- E11: row 0 of the V32 trace. -/
theorem test_stepRound : holdsAfter .stepRound
    { loadAbc with state := .round, t := 0, ws := wsAbc, v := iv32Words }
    (fun t => t.t == 1 && t.v == #v[0x5d6aebcd, 0x6a09e667, 0xbb67ae85, 0x3c6ef372, 0xfa2a4622, 0x510e527f,
      0x9b05688c, 0x1f83d9ab]) = true := by decide
/-- E12 under V64. -/
theorem test_stepRound_last : holdsAfter .stepRound { loadAbc with state := .round, var := .v64, t := 79 }
    (fun t => t.t == 0 && t.state == .fold) = true := by decide
/-- E13: V is row 63 of the V32 trace. -/
theorem test_stepFold : holdsAfter .stepFold
    { loadAbc with
      state := .fold
      v := #v[0x506e3058, 0xd39a2165, 0x04d24d6c, 0xb85e2ce9, 0x5ef50f24, 0xfb121210, 0x948d25b6, 0x961f4894] }
    (fun t => t.state == .done && t.blk == 1 && t.h == #v[0xba7816bf, 0x8f01cfea, 0x414140de, 0x5dae2223,
      0xb00361a3, 0x96177a9c, 0xb410ff61, 0xf20015ad]) = true := by decide
/-- E14's control: not the last block. -/
theorem test_stepFold_more : holdsAfter .stepFold { loadAbc with state := .fold, nb := 2 }
    (fun t => t.state == .load && t.blk == 1) = true := by decide
theorem test_noStepIdle : holdsAfter .noStepIdle idle3 (fun t => t == idle3) = true := by decide
theorem test_noStepDone : holdsAfter .noStepDone done3 (fun t => t == done3) = true := by decide
theorem test_noStepFault : holdsAfter .noStepFault inFault (fun t => t == inFault) = true := by decide

/-! ### Host programs and turns -/

/-- `setlen 3` is header 0x22 with WDATA 3 (R90). -/
theorem test_assemble_setlen : assemble [.setlen 3] = [.transaction 0x22 3] := by decide
/-- `getdigest` is the reads with headers 0x08 to 0x0F (R90). -/
theorem test_assemble_getdigest :
    assemble [.getdigest] = (List.range 8).map (fun k => HostOp.transaction (BitVec.ofNat 6 (8 + k)) 0) := by decide
/-- The last byte of the serialized digest of S1 (R66) is the low byte of DIGEST7. -/
theorem test_digestByte : digestByte done3 31 = 0xbf := by decide

/-- P1's host-first schedule: two listed host turns come before any engine step. -/
theorem test_turns_host_first :
    (match run 2 { State.reset with program := assemble [.setlen 3, .hash256, .wait], turns := [.host, .host] } with
      | .next t => statusWord t == 0x101 && nextTurn t == .engine
      | .fault _ => false
      | .refused _ => false) = true := by decide
/-- R209 under V32: the low 32 bits of the digest registers. -/
theorem test_sha256Result : sha256Result done3 = some (Vector.replicate 8 0xba7816bf) := by decide

/-! ### Witnesses: the hypotheses of the statements can be met -/

theorem witness_wellFormed : WellFormed (.illegal 0x3) = true := by decide
/-- EncodeDecodeRoundTrip's hypothesis at a read with zero data lines. -/
theorem witness_canonical_read : headerWE 0x01 = false := by decide
theorem witness_stepRuns_engine : nextTurn { idle3 with turns := [.engine, .host] } = .engine ∧
    nextTurn padAbc = .engine ∧ nextTurn State.reset = .engine := by decide
theorem witness_stepRuns_host :
    let s : State := { idle3 with program := [.transaction 0x20 0x1] }
    nextTurn s = .host ∧ s.program = .transaction 0x20 0x1 :: [] ∧ s.resetHeld = false ∧ s.turns = [] := by decide
theorem witness_stepRuns_command :
    let s : State := { padAbc with program := [.command 0x2], turns := [.host] }
    nextTurn s = .host ∧ s.program = .command 0x2 :: [] ∧ s.resetHeld = false ∧ s.turns = .host :: [] := by decide
theorem witness_stepRuns_nothing_left :
    nextTurn { idle3 with turns := [.host] } = .host ∧ idle3.program = [] := by decide
theorem witness_poll_turn :
    nextTurn { busyRound5 with program := [.poll 1 1 0], turns := [.host] } = .host := by decide
theorem witness_engine_states :
    State.reset.state = .idle ∧ padAbc.state = .pad ∧ loadAbc.state = .load ∧
    ({ loadAbc with state := .expand } : State).state = .expand ∧ busyRound5.state = .round ∧
    ({ loadAbc with state := .fold } : State).state = .fold ∧ done3.state = .done ∧ inFault.state = .fault :=
  ⟨rfl, rfl, rfl, rfl, rfl, rfl, rfl, rfl⟩
theorem witness_poll_match : regValue done3 1 &&& 0x1 = 0x0 := by decide
theorem witness_poll_again : regValue busyRound5 1 &&& 0x1 ≠ 0x0 := by decide
theorem witness_busy_idle_states :
    busyRound5.state ∈ [FsmState.pad, .load, .expand, .round, .fold] ∧
    inFault.state ∈ [FsmState.idle, .done, .fault] ∧ idle3.state ∈ [FsmState.idle, .done] := by decide
theorem witness_ignored_headers : (0x21 : BitVec 6) = 0x21 ∧ (0x23 : BitVec 6) ≤ 0x23 ∧ (0x23 : BitVec 6) ≤ 0x3F := by
  decide
theorem witness_command_words :
    cmdLegal 0x3 = false ∧ (cmdLegal 0x0 = true ∧ cmdOp 0x0 = 0x0) ∧ (cmdLegal 0x11 = true ∧ cmdOp 0x11 = 0x1) ∧
    (cmdLegal 0x2 = true ∧ cmdOp 0x2 = 0x2) := by decide
theorem witness_hash_legacy : ({ State.reset with cfg := ⟨.legacy⟩ } : State).msgLen = 0 ∧
    ({ State.reset with cfg := ⟨.legacy⟩ } : State).cfg.emptyPolicy = .legacy ∧
    State.reset.state ∈ [FsmState.idle, .done] := by decide
theorem witness_hash_standard :
    ¬(State.reset.msgLen = 0 ∧ State.reset.cfg.emptyPolicy = .legacy) ∧
    ¬(idle3.msgLen = 0 ∧ idle3.cfg.emptyPolicy = .legacy) := by decide
theorem witness_load_stable : loadAbc.stale = [] ∧ loadAbc.state = .load ∧ loadAbc.turns = [] := by decide
/-- LoadStepEffect's clause on V: V64, and V32 with zero upper halves. -/
theorem witness_load_v_copy : ({ loadAbc with var := .v64 } : State).var = .v64 ∧
    ∀ k : Fin 8, UpperHalfZero loadAbc.h[k] := by
  refine ⟨rfl, ?_⟩
  show ∀ k : Fin 8, loadAbc.h[k].toNat < 2 ^ 32
  decide
theorem witness_expand_range :
    (16 ≤ (16 : BitVec 7).toNat ∧ (16 : BitVec 7).toNat ≤ rounds .v32 - 1) ∧
    (16 ≤ (79 : BitVec 7).toNat ∧ (79 : BitVec 7).toNat = rounds .v64 - 1) := by decide
theorem witness_round_range : (0 : BitVec 7).toNat < rounds .v32 ∧ (63 : BitVec 7).toNat = rounds .v32 - 1 := by decide
theorem witness_fold_ends :
    loadAbc.blk.toNat + 1 = loadAbc.nb.toNat ∧ ({ loadAbc with nb := 2 } : State).blk.toNat + 1 ≠ 2 := by decide
/-- FoldStepEffect: a FOLD state that keeps the sequencing invariant, at the last block. -/
theorem witness_fold_sequencing : SequencingInv { loadAbc with state := .fold } :=
  ⟨rfl, ⟨rfl, by decide⟩, by decide, by decide⟩
theorem witness_out_of_range :
    ¬(16 ≤ State.reset.t.toNat ∧ State.reset.t.toNat ≤ rounds State.reset.var - 1) ∧
    ¬ (64 : BitVec 7).toNat ≤ rounds .v32 - 1 := by decide
/-- StateTransitions and StepKeepsSequencing: a running hash meets the invariant, and its step changes STATE. -/
theorem witness_sequencing : SequencingInv padAbc where
  tInRange := rfl
  blocksInRange := ⟨rfl, rfl⟩
  errInv_iff_fault := by decide
  noDigest_legacy := by decide
theorem witness_transition : ∃ t, step padAbc = .next t ∧ t.state ≠ padAbc.state := ⟨_, rfl, by decide⟩
/-- "IDLE, MSG_LEN = 3" with a V32 HASH as the host's next entry. -/
def hashNext : State := { idle3 with program := [.transaction 0x20 0x1], mem := padAbc.mem }
theorem witness_takesHash : takesHash hashNext .v32 ∧ hashNext.state ∈ [FsmState.idle, .done] :=
  ⟨⟨rfl, .inr ⟨rfl, rfl⟩⟩, by decide⟩
theorem witness_transition_hash : SequencingInv hashNext ∧
    ∃ t, step hashNext = .next t ∧ t.state = .pad :=
  ⟨⟨rfl, trivial, by decide, by decide⟩, _, rfl, by decide⟩
theorem witness_transition_legacy :
    let s : State := { State.reset with cfg := ⟨.legacy⟩, program := [.command 0x11] }
    takesHash s .v64 ∧ ∃ t, step s = .next t ∧ t.state = .done ∧ hashResult .v64 t = none :=
  ⟨⟨rfl, .inl ⟨rfl, rfl⟩⟩, _, rfl, by decide, by decide⟩
theorem witness_transition_abort :
    let s : State := { padAbc with program := [.command 0x2], turns := [.host] }
    takesCommand s 0x2 ∧ ∃ t, step s = .next t ∧ t.state = .idle :=
  ⟨⟨rfl, .inl ⟨rfl, rfl⟩⟩, _, rfl, rfl⟩
/-- FaultLeftOnlyByAbortOrReset. -/
theorem witness_fault_left : ∃ t, step { inFault with program := [.command 0x2] } = .next t ∧ t.state ≠ .fault :=
  ⟨_, rfl, by decide⟩
/-- ErrorFlagSetters: each flag that can be set is set somewhere. -/
theorem witness_flags_set :
    (∃ t, exec (.illegal 0x3) idle3 = .next t ∧ idle3.errCmd = false ∧ t.errCmd = true) ∧
    (∃ t, exec .hash256 busyRound5 = .next t ∧ busyRound5.errBusy = false ∧ t.errBusy = true) :=
  ⟨⟨_, rfl, rfl, rfl⟩, ⟨_, rfl, rfl, rfl⟩⟩
/-- RegisterWriters: a PAD step changes H and NB, a MSG_LEN write MSG_LEN, a HASH VAR, a read RDATA. -/
theorem witness_registers_written :
    (∃ t, exec .stepPad padAbc = .next t ∧ t.h ≠ padAbc.h ∧ t.nb ≠ padAbc.nb) ∧
    (∃ t, exec .stepLoad loadAbc = .next t ∧ t.v ≠ loadAbc.v ∧ t.ws ≠ loadAbc.ws) ∧
    (∃ t, exec .stepFold loadAbc = .next t ∧ t.blk ≠ loadAbc.blk) ∧
    (∃ t, exec (.wrMsgLen 5) idle3 = .next t ∧ t.msgLen ≠ idle3.msgLen) ∧
    (∃ t, exec .hash512 idle3 = .next t ∧ t.var ≠ idle3.var) ∧
    (∃ t, exec (.rd 2) idle3 = .next t ∧ t.rdata ≠ idle3.rdata) :=
  ⟨⟨_, rfl, by decide, by decide⟩, ⟨_, rfl, by decide, by decide⟩, ⟨_, rfl, by decide⟩, ⟨_, rfl, by decide⟩,
    ⟨_, rfl, by decide⟩, ⟨_, rfl, by decide⟩⟩
theorem witness_memory_changed : MemoryInv padAbc ∧
    ∃ t, step { padAbc with turns := [.platformWrite 1 0x7a] } = .next t ∧
      Memory.read t.mem 1 ≠ Memory.read padAbc.mem 1 :=
  ⟨rfl, _, rfl, by decide⟩
/-- RacingReadIsADraw: an address below MSG_LEN, and the first at which a write adds nothing. -/
theorem witness_racing_write_edges : nextTurn { padAbc with turns := [.platformWrite 3 0x7a] } = .platformWrite 3 0x7a ∧
    padAbc.msgLen.toNat ≤ (3 : Word).toNat := by decide
theorem witness_racing_write : padAbc.busy = true ∧ (1 : Word).toNat < padAbc.msgLen.toNat ∧ idle3.busy = false ∧
    staleAt padAbc 1 = [] := by decide
theorem witness_reset_held :
    let s : State := { State.reset.assertReset with program := [.transaction 0x22 5] }
    nextTurn s = .host ∧ s.resetHeld = true ∧ headerWE 0x22 = true ∧ headerWE 0x01 = false ∧
    nextTurn { s with turns := [.resetOn] } = .resetOn ∧ nextTurn { s with turns := [.resetOff] } = .resetOff := by
  decide
theorem witness_reset_held_poll :
    let s : State := { State.reset.assertReset with program := [.poll 1 1 0] }
    nextTurn s = .host ∧ s.resetHeld = true := by decide
theorem witness_neverFault : NeverFaultInv padAbc := ⟨by decide, rfl⟩
theorem witness_zeroExtension : ZeroExtensionInv loadAbc where
  h := fun _ _ => witness_load_v_copy.2
  v := fun _ h => absurd h (by decide)
  ws_expand := fun _ h => absurd h (by decide)
  ws_rounds := fun _ h => absurd h (by decide)
theorem witness_messageReads : SequencingInv loadAbc ∧ MessageReadsInv loadAbc :=
  ⟨⟨rfl, ⟨rfl, by decide⟩, by decide, by decide⟩, rfl⟩
theorem witness_resetHeldInv : ResetHeldInv State.reset.assertReset := fun _ => rfl
theorem witness_rotate_index : 3 < 32 := by decide
theorem witness_digest_index : 31 / wordBytes .v32 < 8 ∧ 63 / wordBytes .v64 < 8 := by decide
theorem witness_padding_positions : 0 < 3 ∧ 3 < 4 ∧ 4 < paddedBytes .v32 3 - lengthBytes .v32 := by decide
theorem witness_block_count : 3 + 1 + lengthBytes .v32 ≤ 1 * blockBytes .v32 := by decide
/-- V32IgnoresUpperHalves: two states that differ in an upper half. -/
theorem witness_upper_halves :
    let s' : State := { loadAbc with h := loadAbc.h.set 0 0xffffffff6a09e667 }
    ({ s' with h := loadAbc.h, v := loadAbc.v, ws := loadAbc.ws } : State) = loadAbc ∧ s'.h ≠ loadAbc.h ∧
      ∀ k : Fin 8, lowWord .v32 s'.h[k] = lowWord .v32 loadAbc.h[k] :=
  ⟨rfl, by decide, by decide⟩
theorem witness_hash_run : padAbc.state = .pad ∧ padAbc.blk = 0 ∧ padAbc.turns = [] := ⟨rfl, rfl, rfl⟩
theorem witness_hash_result :
    hashNext.state ∈ [FsmState.idle, .done] ∧ hashNext.resetHeld = false ∧
      hashNext.program = [.transaction 0x20 0x1] ∧ hashNext.turns = [] ∧
      ¬(hashNext.msgLen = 0 ∧ hashNext.cfg.emptyPolicy = .legacy) := by decide
theorem witness_hash_result_legacy :
    let s : State := { State.reset with cfg := ⟨.legacy⟩, program := [.transaction 0x20 0x11] }
    s.state ∈ [FsmState.idle, .done] ∧ s.resetHeld = false ∧ s.program = [.transaction 0x20 0x11] ∧ s.turns = [] ∧
      s.msgLen = 0 ∧ s.cfg.emptyPolicy = .legacy := by decide
/-- StepKeepsDigest: V32 "abc" in PAD, and in LOAD with H = IV, with none of the four excluded events. -/
theorem witness_digest_pad : SequencingInv padAbc ∧ MessageReadsInv padAbc ∧
    DigestInv .v32 3 (Memory.read padAbc.mem) padAbc ∧ ¬takesCommand padAbc 0x2 ∧ nextTurn padAbc ≠ .resetOn ∧
    ¬takesRacingWrite padAbc ∧ ¬(padAbc.state = .done ∧ ∃ v, takesHash padAbc v) := by
  have ht : nextTurn padAbc = .engine := by decide
  refine ⟨witness_sequencing, rfl, ⟨rfl, rfl, fun _ => ⟨rfl, rfl, fun _ _ => rfl⟩, trivial⟩, ?_, by decide, ?_, ?_⟩
  · rintro ⟨-, ⟨h, -⟩ | ⟨h, -⟩⟩ <;> simp [ht] at h
  · rintro ⟨-, a, b, h, -⟩; simp [ht] at h
  · rintro ⟨h, -⟩; simp [padAbc] at h
theorem witness_digest_load : DigestInv .v32 3 (Memory.read loadAbc.mem) loadAbc where
  var_eq := rfl
  noDigest_clear := rfl
  message := fun _ => ⟨rfl, rfl, fun _ _ => rfl⟩
  datapath := by
    show iv32Words = zextWords (chaining .v32 3 _ 0)
    decide
/-- EndedHashReturnsDigest: a state in DONE with the digest of a message in H. -/
theorem witness_digest_done : DigestInv .v32 3 (Memory.read padAbc.mem)
    { idle3 with
      state := .done, nb := 1, blk := 1, msgReads := [0, 1, 2]
      h := zextWords (digest .v32 3 (Memory.read padAbc.mem)) } where
  var_eq := rfl
  noDigest_clear := rfl
  message := by decide
  datapath := ⟨rfl, rfl, rfl, rfl⟩
theorem witness_counts_down : SequencingInv padAbc ∧ padAbc.busy = true ∧ nextTurn padAbc = .engine ∧
    nextTurn { padAbc with turns := [.host] } ≠ .engine := ⟨witness_sequencing, by decide, by decide, by decide⟩
theorem witness_run_ended : runEnded done3 = true ∧ nextTurn done3 ≠ .resetOn := by decide
theorem witness_sigma_index : 31 < 32 ∧ 63 < 64 := by decide
/-- WaitTerminates, with turns listed for each agent. -/
theorem witness_wait :
    let s : State := { padAbc with program := assemble [.wait], turns := [.host, .engine, .platformWrite 0 0x7a, .host] }
    SequencingInv s ∧ s.resetHeld = false ∧ .resetOn ∉ s.turns :=
  ⟨⟨rfl, ⟨rfl, rfl⟩, by decide, by decide⟩, rfl, by decide⟩

end Sys2Proof.Tests
end

/-! PROOFS. The statements of 00_scope.md. -/

namespace Sys2Proof.Machine

/-- R250 from its other side: with reset not held a transaction is executed. -/
theorem hostStep_of_not_resetHeld {s : State} (h : s.resetHeld = false) (e : Encoded) :
    hostStep e s = exec (decode e) s := by
  simp [hostStep, h]

/-- The host's turn with an entry left: that entry is issued, and it and the turn are taken from their lists. -/
theorem step_of_host_cons {s : State} {op : HostOp} {rest : List HostOp}
    (ht : nextTurn s = .host) (hp : s.program = op :: rest) :
    step s = opStep op { s with turns := s.turns.tail, program := rest } := by
  have hpop : s.popTurn.program = op :: rest := hp
  rw [step_of_turn ht, turnStep, hostTurn_cons hpop, State.popTurn]

/-- The host's turn with nothing left to issue. -/
theorem step_of_host_nil {s : State} (ht : nextTurn s = .host) (hp : s.program = []) :
    step s = .next { s with turns := s.turns.tail } := by
  have hpop : s.popTurn.program = [] := hp
  rw [step_of_turn ht, turnStep, hostTurn_nil hpop, State.popTurn]

/-- The engine's turn: the STATE code selects the instruction (R87). -/
theorem step_of_engine {s : State} (ht : nextTurn s = .engine) :
    step s = exec (decode (.stateCode s.state.code)) { s with turns := s.turns.tail } := by
  rw [step_of_turn ht, turnStep, engineStep, engineEncoded, State.popTurn]

/-- The host's turn with an entry that is one transaction or command word `e`, and reset not held. -/
theorem step_of_host_encoded {s : State} {op : HostOp} {rest : List HostOp} {e : Encoded}
    (he : ∀ t, opStep op t = hostStep e t)
    (ht : nextTurn s = .host) (hp : s.program = op :: rest) (hr : s.resetHeld = false) :
    step s = exec (decode e) { s with turns := s.turns.tail, program := rest } := by
  rw [step_of_host_cons ht hp, he]
  apply hostStep_of_not_resetHeld
  exact hr

/-- Settles O6: each agent's turn by its own equation of `step`, and the choice of turn by whether one is listed. -/
theorem stepRunsDecodedInstruction : Obligations.StepRunsDecodedInstruction := by
  intro s
  refine ⟨step_of_engine, ?transaction, ?command, step_of_host_nil, fun _ _ => nextTurn_cons, nextTurn_nil⟩
  case transaction => exact fun _ _ _ => step_of_host_encoded fun _ => rfl
  case command => exact fun _ _ => step_of_host_encoded fun _ => rfl

end Sys2Proof.Machine

/-! PROOFS. The statements of 10_state.md. -/

namespace Sys2Proof.Machine

/-! ### Equations of the engine's steps (44_driver.md R201 to R204) -/

theorem exec_stepLoad (s : State) : exec .stepLoad s = .next { s with
    ws := Vector.ofFn fun k => if k.val < 16 then loadWord s k.val else s.ws[k]
    v := Vector.ofFn fun k => zext64 (lowWord s.var s.h[k])
    t := 16
    state := .expand
    msgReads := s.msgReads ++ blockReads s.var s.len s.blk.toNat
    fresh := s.fresh + blockBytes s.var } := rfl

theorem exec_stepExpand (s : State) : exec .stepExpand s = .next (State.advance { s with
    ws := s.ws.setIfInBounds s.t.toNat (zext64 (expandWord s))
    fresh := if s.expandIndexOk then s.fresh else s.fresh + 1 } .round) := rfl

theorem exec_stepRound (s : State) : exec .stepRound s = .next (State.advance { s with
    v := Vector.ofFn fun k => zext64 (roundResult s)[k]
    fresh := if s.roundIndexOk then s.fresh else s.fresh + 8 } .fold) := rfl

theorem exec_stepFold (s : State) : exec .stepFold s = .next { s with
    h := Vector.ofFn fun k => zext64 (lowWord s.var s.h[k] + lowWord s.var s.v[k])
    blk := s.blk + 1
    state := if s.blk.toNat + 1 = s.nb.toNat then .done else .load } := rfl

/-! ### STATE and the busy condition -/

theorem rounds_ge (v : Variant) : 64 ≤ rounds v := by cases v <;> decide

/-- Quiescent: the states in which no engine step is enabled (R21). -/
theorem busy_eq_false_iff (s : State) : s.busy = false ↔ s.state = .idle ∨ s.state = .done ∨ s.state = .fault := by
  unfold State.busy
  cases s.state <;> decide

/-- Busy: a hash is under way (R21). -/
theorem busy_eq_decide (s : State) : s.busy = decide (s.state ∈ [.pad, .load, .expand, .round, .fold]) := by
  unfold State.busy
  cases s.state <;> decide

/-! ### The sequencing invariant, STATE by STATE -/

theorem tInRange_iff_of_expand {s : State} (hs : s.state = .expand) :
    TInRange s ↔ 16 ≤ s.t.toNat ∧ s.t.toNat < rounds s.var := by simp [TInRange, hs]

theorem tInRange_iff_of_round {s : State} (hs : s.state = .round) :
    TInRange s ↔ s.t.toNat < rounds s.var := by simp [TInRange, hs]

/-- Outside EXPAND and ROUND T is 0 (R27). -/
theorem tInRange_iff_zero {s : State} (he : s.state ≠ .expand) (hr : s.state ≠ .round) : TInRange s ↔ s.t = 0 := by
  unfold TInRange
  cases hs : s.state <;> simp_all

theorem blocksInRange_iff_of_pad {s : State} (hs : s.state = .pad) : BlocksInRange s ↔ s.blk = 0 ∧ s.nb = 0 := by
  simp [BlocksInRange, hs]

/-- From LOAD to FOLD NB is the block count and BLK an index below it (R28, R29). -/
theorem blocksInRange_iff_of_block {s : State} (hs : s.state ∈ [.load, .expand, .round, .fold]) :
    BlocksInRange s ↔ s.nb.toNat = numBlocks s.var s.len ∧ s.blk.toNat < s.nb.toNat := by
  unfold BlocksInRange
  cases hs' : s.state <;> simp_all

theorem blocksInRange_iff_of_done {s : State} (hs : s.state = .done) : BlocksInRange s ↔ s.blk = s.nb := by
  simp [BlocksInRange, hs]

theorem blocksInRange_of_idle {s : State} (hs : s.state = .idle) : BlocksInRange s := by simp [BlocksInRange, hs]

/-- From LOAD to FOLD the ranges of BLK and NB depend on neither STATE nor T. -/
theorem BlocksInRange.of_block {s t : State} (h : BlocksInRange s) (hs : s.state ∈ [.load, .expand, .round, .fold])
    (ht : t.state ∈ [.load, .expand, .round, .fold]) (hnb : t.nb = s.nb) (hblk : t.blk = s.blk)
    (hvar : t.var = s.var) (hlen : t.msgLen = s.msgLen) : BlocksInRange t := by
  rw [blocksInRange_iff_of_block hs] at h
  rw [blocksInRange_iff_of_block ht, State.len, hnb, hblk, hvar, hlen]
  exact h

/-- In a quiescent STATE MSG_LEN is free. -/
theorem BlocksInRange.setMsgLen {s : State} (h : BlocksInRange s) (hb : s.busy = false) (d : Word) :
    BlocksInRange { s with msgLen := d } := by
  rcases (busy_eq_false_iff s).mp hb with hs | hs | hs
  · exact blocksInRange_of_idle hs
  · rw [blocksInRange_iff_of_done hs] at h
    exact (blocksInRange_iff_of_done (s := { s with msgLen := d }) hs).mpr h
  · simp [BlocksInRange, hs]

/-! ### Every step keeps the sequencing invariant (R27 to R29, R184, R224) -/

/-- ABORT and reset lead to such a state. -/
theorem SequencingInv.of_idle {s : State} (hs : s.state = .idle) (ht : s.t = 0) (he : s.errInv = false)
    (hn : s.noDigest = false) : SequencingInv s where
  tInRange := (tInRange_iff_zero (by simp [hs]) (by simp [hs])).mpr ht
  blocksInRange := blocksInRange_of_idle hs
  errInv_iff_fault := by simp [hs, he]
  noDigest_legacy := by simp [hn]

section
variable {s t : State}

theorem SequencingInv.errInv_false (h : SequencingInv s) (hs : s.state ≠ .fault) : s.errInv = false := by
  rw [← Bool.not_eq_true, h.errInv_iff_fault]
  exact hs

theorem SequencingInv.noDigest_false (h : SequencingInv s) (hs : s.state ≠ .done) : s.noDigest = false := by
  rw [← Bool.not_eq_true]
  exact fun hn => hs (h.noDigest_legacy hn).1

/-- A step within a hash leaves ERR_INV and NO_DIGEST at 0, so only the ranges are left to show. -/
theorem SequencingInv.of_busy (h : SequencingInv s) (hb : s.state ∈ [.pad, .load, .expand, .round, .fold])
    (ht : t.state ≠ .fault) (he : t.errInv = s.errInv) (hn : t.noDigest = s.noDigest) (htr : TInRange t)
    (hbr : BlocksInRange t) : SequencingInv t where
  tInRange := htr
  blocksInRange := hbr
  errInv_iff_fault := by
    have : s.errInv = false := h.errInv_false fun hs => by simp [hs] at hb
    simp [he, this, ht]
  noDigest_legacy := by
    have : s.noDigest = false := h.noDigest_false fun hs => by simp [hs] at hb
    simp [hn, this]

theorem SequencingInv.stepPad (h : SequencingInv s) (hs : s.state = .pad) (he : exec .stepPad s = .next t) :
    SequencingInv t := by
  rw [exec_stepPad] at he
  cases he
  have ht : s.t = 0 := (tInRange_iff_zero (by simp [hs]) (by simp [hs])).mp h.tInRange
  obtain ⟨hblk, -⟩ := (blocksInRange_iff_of_pad hs).mp h.blocksInRange
  refine h.of_busy (by simp [hs]) (by simp) rfl rfl ?_ ?_
  · exact (tInRange_iff_zero (by simp) (by simp)).mpr ht
  · refine (blocksInRange_iff_of_block (by simp)).mpr ?_
    have hnb : (BitVec.ofNat 64 (numBlocks s.var s.len)).toNat = numBlocks s.var s.len :=
      Nat.mod_eq_of_lt (numBlocks_lt s.var (len_lt s))
    refine ⟨hnb, ?_⟩
    simpa [hblk, hnb] using numBlocks_pos s.var s.len

theorem SequencingInv.stepLoad (h : SequencingInv s) (hs : s.state = .load) (he : exec .stepLoad s = .next t) :
    SequencingInv t := by
  rw [exec_stepLoad] at he
  cases he
  refine h.of_busy (by simp [hs]) (by simp) rfl rfl ?_ ?_
  · exact (tInRange_iff_of_expand rfl).mpr ⟨le_rfl, lt_of_lt_of_le (by simp) (rounds_ge s.var)⟩
  · exact h.blocksInRange.of_block (by simp [hs]) (by simp) rfl rfl rfl rfl

/-- Within EXPAND and ROUND T counts up to N − 1 (R202, R203). -/
theorem TInRange.countUp (h : TInRange s) (hs : s.state = .expand ∨ s.state = .round)
    (hl : s.t.toNat ≠ rounds s.var - 1) : TInRange { s with t := s.t + 1 } := by
  have hN := rounds_le s.var
  have succ : s.t.toNat < rounds s.var → (s.t + 1).toNat = s.t.toNat + 1 ∧ s.t.toNat + 1 < rounds s.var :=
    fun ht => ⟨BitVec.toNat_add_of_lt (show s.t.toNat + 1 < 2 ^ 7 by omega), by omega⟩
  rcases hs with hs | hs
  · obtain ⟨hlo, hhi⟩ := (tInRange_iff_of_expand hs).mp h
    obtain ⟨he, hlt⟩ := succ hhi
    rw [tInRange_iff_of_expand (s := { s with t := s.t + 1 }) hs, he]
    exact ⟨by omega, hlt⟩
  · obtain ⟨he, hlt⟩ := succ ((tInRange_iff_of_round hs).mp h)
    rw [tInRange_iff_of_round (s := { s with t := s.t + 1 }) hs, he]
    exact hlt

/-- The phases that EXPAND and ROUND lead to begin with T = 0 (R202, R203). -/
theorem tInRange_nextPhase {next : FsmState} (hn : next = .round ∨ next = .fold) :
    TInRange { s with t := 0, state := next } := by
  rcases hn with rfl | rfl
  · exact (tInRange_iff_of_round rfl).mpr (lt_of_lt_of_le (by simp) (rounds_ge s.var))
  · exact (tInRange_iff_zero (by simp) (by simp)).mpr rfl

theorem SequencingInv.advance {next : FsmState} (h : SequencingInv s) (hs : s.state = .expand ∨ s.state = .round)
    (hn : next = .round ∨ next = .fold) : SequencingInv (s.advance next) := by
  have hb : s.state ∈ [.pad, .load, .expand, .round, .fold] := by rcases hs with hs | hs <;> simp [hs]
  have hblock : s.state ∈ [.load, .expand, .round, .fold] := by rcases hs with hs | hs <;> simp [hs]
  by_cases hl : s.t.toNat = rounds s.var - 1
  · rw [State.advance_last hl]
    have hnext : next ∈ [.load, .expand, .round, .fold] := by rcases hn with rfl | rfl <;> simp
    refine h.of_busy hb (by rcases hn with rfl | rfl <;> simp) rfl rfl (tInRange_nextPhase hn) ?_
    exact h.blocksInRange.of_block hblock hnext rfl rfl rfl rfl
  · rw [State.advance_more hl]
    refine h.of_busy hb (by rcases hs with hs | hs <;> simp [hs]) rfl rfl (h.tInRange.countUp hs hl) ?_
    exact h.blocksInRange.of_block hblock hblock rfl rfl rfl rfl

theorem SequencingInv.stepExpand (h : SequencingInv s) (hs : s.state = .expand)
    (he : exec .stepExpand s = .next t) : SequencingInv t := by
  rw [exec_stepExpand] at he
  cases he
  exact SequencingInv.advance { h with } (.inl hs) (.inl rfl)

theorem SequencingInv.stepRound (h : SequencingInv s) (hs : s.state = .round)
    (he : exec .stepRound s = .next t) : SequencingInv t := by
  rw [exec_stepRound] at he
  cases he
  exact SequencingInv.advance { h with } (.inr hs) (.inr rfl)

theorem SequencingInv.stepFold (h : SequencingInv s) (hs : s.state = .fold) (he : exec .stepFold s = .next t) :
    SequencingInv t := by
  rw [exec_stepFold] at he
  cases he
  have ht : s.t = 0 := (tInRange_iff_zero (by simp [hs]) (by simp [hs])).mp h.tInRange
  obtain ⟨hnb, hblk⟩ := (blocksInRange_iff_of_block (by simp [hs])).mp h.blocksInRange
  have hsucc : (s.blk + 1).toNat = s.blk.toNat + 1 := BitVec.toNat_add_of_lt (lt_of_le_of_lt hblk s.nb.isLt)
  have hb : s.state ∈ [.pad, .load, .expand, .round, .fold] := by simp [hs]
  by_cases hl : s.blk.toNat + 1 = s.nb.toNat
  · simp only [if_pos hl]
    refine h.of_busy hb (by simp) rfl rfl ?_ ?_
    · exact (tInRange_iff_zero (by simp) (by simp)).mpr ht
    · exact (blocksInRange_iff_of_done rfl).mpr (BitVec.eq_of_toNat_eq (hsucc.trans hl))
  · simp only [if_neg hl]
    refine h.of_busy hb (by simp) rfl rfl ?_ ?_
    · exact (tInRange_iff_zero (by simp) (by simp)).mpr ht
    · refine (blocksInRange_iff_of_block (by simp)).mpr ⟨hnb, ?_⟩
      show (s.blk + 1).toNat < s.nb.toNat
      omega

theorem SequencingInv.startHash (h : SequencingInv s) (v : Variant) : SequencingInv (s.startHash v) := by
  rcases s.startHash_cases v with ⟨-, hc⟩ | ⟨-, hf, -, hp, hc⟩ | ⟨-, hf, -, hc⟩ <;> rw [hc]
  · exact { h with }
  · exact {
      tInRange := (tInRange_iff_zero (by simp) (by simp)).mpr rfl
      blocksInRange := (blocksInRange_iff_of_done rfl).mpr rfl
      errInv_iff_fault := by simp [h.errInv_false hf]
      noDigest_legacy := fun _ => ⟨rfl, hp, rfl⟩ }
  · exact {
      tInRange := (tInRange_iff_zero (by simp) (by simp)).mpr rfl
      blocksInRange := (blocksInRange_iff_of_pad rfl).mpr ⟨rfl, rfl⟩
      errInv_iff_fault := by simp [h.errInv_false hf]
      noDigest_legacy := by simp }

end

/-- Settles O36: the steps of a hash by STATE, HASH by its three outcomes; ABORT and reset lead to IDLE with T = 0. -/
theorem stepKeepsSequencing : Obligations.StepKeepsSequencing := by
  intro s t hs h
  refine step_preserves (P := SequencingInv) (hs := hs) (h := h)
    (agents := fun s p l h => { h with })
    (port := fun s r n h => { h with })
    (engine := ?engine)
    (errCmd := fun s h _ => { h with })
    (errBusy := fun s h _ => { h with })
    (msgLen := fun s d h _ hb => { h with blocksInRange := h.blocksInRange.setMsgLen hb d })
    (hash := fun s v h _ => h.startHash v)
    (abort := fun s _ _ => .of_idle rfl rfl rfl rfl)
    (platform := fun s a b h => { h with })
    (reset := fun s _ => .of_idle rfl rfl rfl rfl)
    (release := fun s h => { h with })
  intro s t hs h
  rcases engineStep_cases h with ⟨-, rfl⟩ | ⟨hst, rfl⟩ | ⟨hst, he⟩ | ⟨hst, he⟩ | ⟨hst, he⟩ | ⟨hst, he⟩
  · exact hs
  · exact hs.stepPad hst (exec_stepPad s)
  · exact hs.stepLoad hst he
  · exact hs.stepExpand hst he
  · exact hs.stepRound hst he
  · exact hs.stepFold hst he

/-! ### Every step keeps the zero extension (R22) -/

theorem upperHalfZero_zext64 {v : Variant} (hv : v = .v32) (x : BitVec (width v)) : UpperHalfZero (zext64 x) := by
  subst hv
  rw [UpperHalfZero, zext64, BitVec.toNat_setWidth]
  exact (Nat.mod_le _ _).trans_lt x.isLt

theorem upperHalfZero_loadWord {s : State} (hv : s.var = .v32) (k : Nat) : UpperHalfZero (loadWord s k) :=
  upperHalfZero_zext64 hv _

/-- In IDLE and PAD nothing is claimed. -/
theorem ZeroExtensionInv.of_not_hashing {s : State} (hs : s.state = .idle ∨ s.state = .pad) :
    ZeroExtensionInv s := by
  constructor <;> rcases hs with hs | hs <;> simp [hs]

section
variable {s t : State}

theorem ZeroExtensionInv.stepPad (he : exec .stepPad s = .next t) : ZeroExtensionInv t := by
  rw [exec_stepPad] at he
  cases he
  exact {
    h := fun hv _ k => by simpa using upperHalfZero_zext64 hv _
    v := by simp
    ws_expand := by simp
    ws_rounds := by simp }

theorem ZeroExtensionInv.stepLoad (h : ZeroExtensionInv s) (hs : s.state = .load)
    (he : exec .stepLoad s = .next t) : ZeroExtensionInv t := by
  rw [exec_stepLoad] at he
  cases he
  exact {
    h := fun hv _ => h.h hv (by simp [hs])
    v := fun hv _ k => by simpa using upperHalfZero_zext64 hv _
    ws_expand := fun hv _ k hk => by
      have hk : k.val < 16 := hk
      simpa [hk] using upperHalfZero_loadWord (s := s) hv k.val
    ws_rounds := by simp }

/-- EXPAND writes Ws[T], so all entries up to that one are zero-extended. -/
theorem ZeroExtensionInv.expandedWs (h : ZeroExtensionInv s) (hs : s.state = .expand) (hv : s.var = .v32)
    (k : Fin 80) (hk : k.val ≤ s.t.toNat) :
    UpperHalfZero (s.ws.setIfInBounds s.t.toNat (zext64 (expandWord s)))[k] := by
  rw [Fin.getElem_fin, Vector.getElem_setIfInBounds]
  split
  · exact upperHalfZero_zext64 hv _
  · exact h.ws_expand hv hs k (by omega)

theorem ZeroExtensionInv.stepExpand (h : ZeroExtensionInv s) (hs : s.state = .expand)
    (he : exec .stepExpand s = .next t) : ZeroExtensionInv t := by
  rw [exec_stepExpand] at he
  cases he
  by_cases hl : s.t.toNat = rounds s.var - 1
  · rw [State.advance_last (by exact hl)]
    exact {
      h := fun hv _ => h.h hv (by simp [hs])
      v := fun hv _ => h.v hv (.inl (by simp [hs]))
      ws_expand := by simp
      ws_rounds := fun hv _ k hk => h.expandedWs hs hv k (by
        have hv : s.var = .v32 := hv
        simp only [hv, rounds] at hl
        omega) }
  · rw [State.advance_more (by exact hl)]
    exact {
      h := h.h
      v := h.v
      ws_expand := fun hv _ k hk => h.expandedWs hs hv k (by
        have hle : (s.t + 1).toNat ≤ s.t.toNat + 1 := BitVec.toNat_add _ _ ▸ Nat.mod_le _ _
        exact Nat.le_of_lt_succ (lt_of_lt_of_le hk hle))
      ws_rounds := by simp [hs] }

theorem ZeroExtensionInv.stepRound (h : ZeroExtensionInv s) (hs : s.state = .round)
    (he : exec .stepRound s = .next t) : ZeroExtensionInv t := by
  rw [exec_stepRound] at he
  cases he
  by_cases hl : s.t.toNat = rounds s.var - 1
  · rw [State.advance_last (by exact hl)]
    exact {
      h := fun hv _ => h.h hv (by simp [hs])
      v := fun hv _ k => by simpa using upperHalfZero_zext64 hv _
      ws_expand := by simp
      ws_rounds := fun hv _ => h.ws_rounds hv (by simp [hs]) }
  · rw [State.advance_more (by exact hl)]
    exact {
      h := h.h
      v := fun hv _ k => by simpa using upperHalfZero_zext64 hv _
      ws_expand := by simp [hs]
      ws_rounds := h.ws_rounds }

theorem ZeroExtensionInv.stepFold (h : ZeroExtensionInv s) (hs : s.state = .fold)
    (he : exec .stepFold s = .next t) : ZeroExtensionInv t := by
  rw [exec_stepFold] at he
  cases he
  exact {
    h := fun hv _ k => by simpa using upperHalfZero_zext64 hv _
    v := fun hv _ => h.v hv (.inl (by simp [hs]))
    ws_expand := fun _ ht => by dsimp only at ht; split at ht <;> simp at ht
    ws_rounds := fun _ ht => by dsimp only at ht; split at ht <;> simp at ht }

theorem ZeroExtensionInv.startHash (h : ZeroExtensionInv s) (v : Variant) : ZeroExtensionInv (s.startHash v) := by
  rcases s.startHash_cases v with ⟨-, hc⟩ | ⟨-, -, -, -, hc⟩ | ⟨-, -, -, hc⟩ <;> rw [hc]
  · exact { h with }
  · exact {
      h := fun _ _ k => by simp [UpperHalfZero]
      v := by simp
      ws_expand := by simp
      ws_rounds := by simp }
  · exact .of_not_hashing (.inr rfl)

end

/-- Settles O38: the steps of a hash by STATE; a HASH leads to PAD, where nothing is claimed, or to DONE with H = 0. -/
theorem stepKeepsZeroExtension : Obligations.StepKeepsZeroExtension := by
  intro s t hs h
  refine step_preserves (P := ZeroExtensionInv) (hs := hs) (h := h)
    (agents := fun s p l h => { h with })
    (port := fun s r n h => { h with })
    (engine := ?engine)
    (errCmd := fun s h _ => { h with })
    (errBusy := fun s h _ => { h with })
    (msgLen := fun s d h _ hb => { h with })
    (hash := fun s v h _ => h.startHash v)
    (abort := fun s _ _ => .of_not_hashing (.inl rfl))
    (platform := fun s a b h => { h with })
    (reset := fun s _ => .of_not_hashing (.inl rfl))
    (release := fun s h => { h with })
  intro s t hs h
  rcases engineStep_cases h with ⟨-, rfl⟩ | ⟨hst, rfl⟩ | ⟨hst, he⟩ | ⟨hst, he⟩ | ⟨hst, he⟩ | ⟨hst, he⟩
  · exact hs
  · exact .stepPad (exec_stepPad s)
  · exact hs.stepLoad hst he
  · exact hs.stepExpand hst he
  · exact hs.stepRound hst he
  · exact hs.stepFold hst he

/-! ### The layout of STATUS (R31) -/

/-- A field of STATUS, placed at bit `n`. -/
theorem getLsbD_setWidth_shiftLeft {w i : Nat} (x : BitVec w) (n : Nat) (hi : i < 64) :
    (x.setWidth 64 <<< n).getLsbD i = (decide (n ≤ i) && x.getLsbD (i - n)) := by
  by_cases hn : n ≤ i
  · simp [hi, hn, Nat.not_lt.mpr hn]
  · simp [hn, Nat.not_le.mp hn]

theorem getLsbD_flagAt (b : Bool) (n : Nat) {i : Nat} (hi : i < 64) :
    (flagAt b n).getLsbD i = (decide (i = n) && b) := by
  rw [flagAt, getLsbD_setWidth_shiftLeft _ _ hi, BitVec.getLsbD_ofBool]
  by_cases h : i = n
  · simp [h]
  · have : n ≤ i → i - n ≠ 0 := by omega
    simp +contextual [h, this]

theorem varBit_eq_decide (v : Variant) : varBit v = decide (v = .v64) := by cases v <;> rfl

/-- Every bit of STATUS: the flags at their positions, STATE from bit 8 on and T from bit 12 on. -/
theorem getLsbD_statusWord (s : State) {i : Nat} (hi : i < 64) :
    (statusWord s).getLsbD i =
      (decide (i = 0) && s.busy || decide (i = 1) && (s.state == .done) || decide (i = 2) && s.noDigest ||
        decide (i = 3) && varBit s.var || decide (i = 4) && s.errCmd || decide (i = 5) && s.errBusy ||
        decide (i = 6) && s.errInv || decide (8 ≤ i) && s.state.code.getLsbD (i - 8) ||
        decide (12 ≤ i) && s.t.getLsbD (i - 12)) := by
  simp only [statusWord, BitVec.getLsbD_or, getLsbD_flagAt _ _ hi, getLsbD_setWidth_shiftLeft _ _ hi]

/-- The fields above the flags: from bit 7 on STATUS holds STATE and T only. -/
theorem getLsbD_statusWord_of_ge (s : State) {i : Nat} (h7 : 7 ≤ i) (hi : i < 64) :
    (statusWord s).getLsbD i = (decide (8 ≤ i) && s.state.code.getLsbD (i - 8) ||
      decide (12 ≤ i) && s.t.getLsbD (i - 12)) := by
  have hflag : ∀ n, n < 7 → i ≠ n := fun n hn => by omega
  rw [getLsbD_statusWord s hi]
  simp [hflag]

/-- Settles O11: each field by the bits of STATUS; STATE ends below bit 11 and T below bit 19, so the reserved bits
are 0. -/
theorem statusFieldLayout : Obligations.StatusFieldLayout := by
  refine ⟨by decide, fun s => ⟨?_, ?_, ?_, ?_, ?_, ?_, ?_, ?_, ?state, ?_, ?t, ?reserved⟩⟩
  case state =>
    refine BitVec.eq_of_getLsbD_eq fun i hi => ?_
    rw [BitVec.getLsbD_extractLsb', getLsbD_statusWord_of_ge s (by omega) (by omega)]
    have : ¬12 ≤ 8 + i := by omega
    simp [hi, this]
  case t =>
    refine BitVec.eq_of_getLsbD_eq fun i hi => ?_
    rw [BitVec.getLsbD_extractLsb', getLsbD_statusWord_of_ge s (by omega) (by omega)]
    have : 3 ≤ 12 + i - 8 := by omega
    simp [hi, BitVec.getLsbD_of_ge _ _ this]
  case reserved =>
    refine BitVec.eq_of_getLsbD_eq fun i hi => ?_
    rw [BitVec.getLsbD_extractLsb', getLsbD_statusWord_of_ge s (by omega) (by omega)]
    have h1 : 3 ≤ 19 + i - 8 := by omega
    have h2 : 7 ≤ 19 + i - 12 := by omega
    simp [BitVec.getLsbD_of_ge _ _ h1, BitVec.getLsbD_of_ge _ _ h2]
  all_goals rw [getLsbD_statusWord s (by decide)]
  · simp [busy_eq_decide]
  · simp [beq_eq_decide]
  · simp
  · simp [varBit_eq_decide]
  · simp
  · simp
  · simp
  · simp
  · simp

/-! ### Reset (R45) -/

/-- A register index reads STATUS, one of the 64-bit registers, or 0 (R32). -/
theorem regValue_eq_zero {s : State} (hstatus : statusWord s = 0) (hlen : s.msgLen = 0) (hnb : s.nb = 0)
    (hblk : s.blk = 0) (hh : s.h = Vector.replicate 8 0) (hv : s.v = Vector.replicate 8 0) (r : BitVec 5) :
    regValue s r = 0 := by
  unfold regValue
  simp [hstatus, hlen, hnb, hblk, hh, hv]

/-- The reset event leaves the values of the state after reset, whatever the state before. -/
theorem statusWord_assertReset (s : State) : statusWord s.assertReset = 0 := by
  show statusWord State.reset = 0
  decide

/-- Settles O33: the state after reset is one after the reset event, with reset released. -/
theorem resetValues : Obligations.ResetValues := by
  intro s hs
  obtain ⟨u, held, rfl⟩ : ∃ (u : State) (held : Bool), s = { u.assertReset with resetHeld := held } := by
    rcases hs with rfl | ⟨u, rfl⟩
    · exact ⟨State.reset, false, rfl⟩
    · exact ⟨u, true, rfl⟩
  refine ⟨rfl, fun k => ?_, fun k => ?_, rfl, fun k => ?_, rfl, rfl, rfl, rfl, rfl, rfl, rfl, rfl, ?_⟩
  · simp
  · simp
  · simp
  · exact regValue_eq_zero (statusWord_assertReset u) rfl rfl rfl rfl rfl

/-- Settles O35: the engine is in IDLE with T = 0 and no flag set, and reset is not held. -/
theorem resetMeetsInvariants : Obligations.ResetMeetsInvariants :=
  ⟨.of_idle rfl rfl rfl rfl, ⟨by decide, rfl⟩, .of_not_hashing (.inl rfl), trivial,
    fun h => absurd h (by decide), Memory.wf_reset⟩

/-! ### What an engine step reads of H, V and Ws (R22) -/

/-- Two states that differ at most in H, V and Ws, and agree there in the W bits of the variant. -/
structure LowWordsAgree (s s' : State) : Prop where
  rest : { s' with h := s.h, v := s.v, ws := s.ws } = s
  h : ∀ k : Fin 8, lowWord s.var s'.h[k] = lowWord s.var s.h[k]
  v : ∀ k : Fin 8, lowWord s.var s'.v[k] = lowWord s.var s.v[k]
  ws : ∀ k : Fin 80, lowWord s.var s'.ws[k] = lowWord s.var s.ws[k]

section
variable {s : State} {h' v' : Vector Word 8} {ws' : Vector Word 80}

theorem schedEntry_congr (hws : ∀ k : Fin 80, lowWord s.var ws'[k] = lowWord s.var s.ws[k]) {i : Nat} (hi : i < 80) :
    schedEntry { s with h := h', v := v', ws := ws' } i hi = schedEntry s i hi := hws ⟨i, hi⟩

theorem expandWord_congr (hws : ∀ k : Fin 80, lowWord s.var ws'[k] = lowWord s.var s.ws[k]) :
    expandWord { s with h := h', v := v', ws := ws' } = expandWord s := by
  unfold expandWord
  simp only [schedEntry_congr hws]

theorem roundResult_congr (hv : ∀ k : Fin 8, lowWord s.var v'[k] = lowWord s.var s.v[k])
    (hws : ∀ k : Fin 80, lowWord s.var ws'[k] = lowWord s.var s.ws[k]) :
    roundResult { s with h := h', v := v', ws := ws' } = roundResult s := by
  have hwork : workWords { s with h := h', v := v', ws := ws' } = workWords s := by
    unfold workWords
    simp only [hv]
  unfold roundResult
  simp only [schedEntry_congr hws, hwork]

theorem LowWordsAgree.exists_with {s' : State} (a : LowWordsAgree s s') :
    ∃ h' v' ws', s' = { s with h := h', v := v', ws := ws' } ∧
      (∀ k : Fin 8, lowWord s.var h'[k] = lowWord s.var s.h[k]) ∧
      (∀ k : Fin 8, lowWord s.var v'[k] = lowWord s.var s.v[k]) ∧
      ∀ k : Fin 80, lowWord s.var ws'[k] = lowWord s.var s.ws[k] :=
  ⟨s'.h, s'.v, s'.ws, by conv_rhs => rw [← a.rest], a.h, a.v, a.ws⟩

/-- Going on to the next T, or to the next phase, looks at none of the three. -/
theorem LowWordsAgree.advance {s' : State} (a : LowWordsAgree s s') (next : FsmState) :
    LowWordsAgree (s.advance next) (s'.advance next) := by
  obtain ⟨h', v', ws', rfl, hh, hv, hws⟩ := a.exists_with
  by_cases hl : s.t.toNat = rounds s.var - 1
  · rw [State.advance_last hl, State.advance_last (by exact hl)]
    exact ⟨rfl, hh, hv, hws⟩
  · rw [State.advance_more hl, State.advance_more (by exact hl)]
    exact ⟨rfl, hh, hv, hws⟩

section
variable {s' t t' : State}

theorem LowWordsAgree.stepPad (a : LowWordsAgree s s') (he : exec .stepPad s = .next t)
    (he' : exec .stepPad s' = .next t') : LowWordsAgree t t' := by
  obtain ⟨h', v', ws', rfl, -, hv, hws⟩ := a.exists_with
  rw [exec_stepPad] at he he'
  cases he
  cases he'
  exact ⟨rfl, fun _ => rfl, hv, hws⟩

theorem LowWordsAgree.stepLoad (a : LowWordsAgree s s') (he : exec .stepLoad s = .next t)
    (he' : exec .stepLoad s' = .next t') : LowWordsAgree t t' := by
  obtain ⟨h', v', ws', rfl, hh, -, hws⟩ := a.exists_with
  rw [exec_stepLoad] at he he'
  cases he
  cases he'
  refine ⟨rfl, hh, fun k => ?_, fun k => ?_⟩
  · simpa using hh k
  · by_cases hk : k.val < 16
    · have hload : loadWord { s with h := h', v := v', ws := ws' } k.val = loadWord s k.val := rfl
      simp [hk, hload]
    · simpa [hk] using hws k

theorem LowWordsAgree.stepExpand (a : LowWordsAgree s s') (he : exec .stepExpand s = .next t)
    (he' : exec .stepExpand s' = .next t') : LowWordsAgree t t' := by
  obtain ⟨h', v', ws', rfl, hh, hv, hws⟩ := a.exists_with
  rw [exec_stepExpand] at he he'
  cases he
  cases he'
  refine LowWordsAgree.advance ⟨rfl, hh, hv, fun k => ?_⟩ _
  rw [expandWord_congr hws]
  simp only [Fin.getElem_fin, Vector.getElem_setIfInBounds]
  split
  · rfl
  · exact hws k

theorem LowWordsAgree.stepRound (a : LowWordsAgree s s') (he : exec .stepRound s = .next t)
    (he' : exec .stepRound s' = .next t') : LowWordsAgree t t' := by
  obtain ⟨h', v', ws', rfl, hh, hv, hws⟩ := a.exists_with
  rw [exec_stepRound] at he he'
  cases he
  cases he'
  refine LowWordsAgree.advance ⟨rfl, hh, fun k => ?_, hws⟩ _
  rw [roundResult_congr hv hws]

theorem LowWordsAgree.stepFold (a : LowWordsAgree s s') (he : exec .stepFold s = .next t)
    (he' : exec .stepFold s' = .next t') : LowWordsAgree t t' := by
  obtain ⟨h', v', ws', rfl, hh, hv, hws⟩ := a.exists_with
  rw [exec_stepFold] at he he'
  cases he
  cases he'
  refine ⟨rfl, fun k => ?_, hv, hws⟩
  simp only [Fin.getElem_fin, Vector.getElem_ofFn] at hh hv ⊢
  rw [hh k, hv k]

/-- No engine step of either variant reads more than the W bits. -/
theorem LowWordsAgree.engineStep (a : LowWordsAgree s s') (h : engineStep s = .next t)
    (h' : engineStep s' = .next t') : LowWordsAgree t t' := by
  have hstate : s'.state = s.state := by rw [← a.rest]
  cases hs : s.state with
  | idle => rw [engineStep_idle hs] at h; rw [engineStep_idle (hstate.trans hs)] at h'; cases h; cases h'; exact a
  | pad => rw [engineStep_pad hs] at h; rw [engineStep_pad (hstate.trans hs)] at h'; exact a.stepPad h h'
  | load => rw [engineStep_load hs] at h; rw [engineStep_load (hstate.trans hs)] at h'; exact a.stepLoad h h'
  | expand => rw [engineStep_expand hs] at h; rw [engineStep_expand (hstate.trans hs)] at h'; exact a.stepExpand h h'
  | round => rw [engineStep_round hs] at h; rw [engineStep_round (hstate.trans hs)] at h'; exact a.stepRound h h'
  | fold => rw [engineStep_fold hs] at h; rw [engineStep_fold (hstate.trans hs)] at h'; exact a.stepFold h h'
  | done => rw [engineStep_done hs] at h; rw [engineStep_done (hstate.trans hs)] at h'; cases h; cases h'; exact a
  | fault => rw [engineStep_fault hs] at h; rw [engineStep_fault (hstate.trans hs)] at h'; cases h; cases h'; exact a

end

end

theorem engineStep_var {s t : State} (h : engineStep s = .next t) : t.var = s.var := by
  rcases engineStep_cases h with ⟨-, rfl⟩ | ⟨-, rfl⟩ | ⟨-, he⟩ | ⟨-, he⟩ | ⟨-, he⟩ | ⟨-, he⟩
  · rfl
  · rfl
  · rw [exec_stepLoad] at he; cases he; rfl
  · rw [exec_stepExpand] at he; cases he; simp
  · rw [exec_stepRound] at he; cases he; simp
  · rw [exec_stepFold] at he; cases he; rfl

/-- Settles O50: the V32 case of what a step of either variant reads. -/
theorem v32IgnoresUpperHalves : Obligations.V32IgnoresUpperHalves := by
  intro s s' t t' hvar rest hh hv hws h h'
  have a : LowWordsAgree s s' := by
    rw [← hvar] at hh hv hws
    exact ⟨rest, hh, hv, hws⟩
  obtain ⟨rest', hh', hv', hws'⟩ := a.engineStep h h'
  have hvar' : t.var = .v32 := (engineStep_var h).trans hvar
  rw [hvar'] at hh' hv' hws'
  exact ⟨rest', hh', hv', hws'⟩

/-! ### Who writes each register (R21, R23 to R30) -/

/-- A command word is its three fields (R82). -/
theorem cmdWord_fields (c : Word) : cmdWord (cmdRsv c) (cmdV c) (cmdOp c) = c := by
  refine BitVec.eq_of_getLsbD_eq fun i hi => ?_
  simp only [cmdWord, cmdRsv, cmdV, cmdOp, BitVec.getLsbD_append, BitVec.getLsbD_extractLsb', BitVec.getLsbD_ofBool]
  by_cases h4 : i < 4
  · simp [h4]
  · by_cases h5 : i = 4
    · simp [h5]
    · have hv : ¬ i - 4 < 1 := by omega
      have hr : i - 4 - 1 < 59 := by omega
      have hi5 : 5 + (i - 4 - 1) = i := by omega
      simp [h4, hv, hr, hi5]

/-- The three conditions of R84. -/
theorem cmdLegal_iff (c : Word) : cmdLegal c = true ↔
    cmdRsv c = 0 ∧ (cmdOp c = 0x0 ∨ cmdOp c = 0x1 ∨ cmdOp c = 0x2) ∧ (cmdV c = false ∨ cmdOp c = 0x1) := by
  simp [cmdLegal, and_assoc, or_assoc]

/-- What a write to CMD does, by the word that is written (R83, R180, R226). -/
theorem runCommand_by_word (s : State) (c : Word) :
    s.runCommand c = s ∨ s.runCommand c = s.signalErrCmd ∨
    ((c = 0x1 ∨ c = 0x11) ∧ ∃ v, s.runCommand c = s.startHash v) ∨ (c = 0x2 ∧ s.runCommand c = s.abortHash) := by
  have hword := cmdWord_fields c
  rcases s.runCommand_cases c with ⟨-, hc⟩ | ⟨-, -, hc⟩ | ⟨hl, hop, hc⟩ | ⟨hl, h0, h1, hc⟩
  · exact .inr (.inl hc)
  · exact .inl hc
  · refine .inr (.inr (.inl ⟨?_, _, hc⟩))
    obtain ⟨hrsv, -, -⟩ := (cmdLegal_iff c).mp hl
    rw [hrsv, hop] at hword
    cases hv : cmdV c <;> rw [hv] at hword
    · exact .inl hword.symm
    · exact .inr hword.symm
  · refine .inr (.inr (.inr ⟨?_, hc⟩))
    obtain ⟨hrsv, hop, hv⟩ := (cmdLegal_iff c).mp hl
    rw [hrsv, (hop.resolve_left h0).resolve_left h1, hv.resolve_right h1] at hword
    exact hword.symm

/-- Everything an instruction can do but for the engine's steps. -/
theorem exec_cases {i : Instr} {s t : State} (h : exec i s = .next t) :
    t = s ∨ t = s.signalErrCmd ∨ t = s.signalErrBusy ∨
    (∃ r, i = .rd r ∧ t = { s with rdata := regValue s r }) ∨
    (∃ d, i = .wrMsgLen d ∧ s.busy = false ∧ t = { s with msgLen := d }) ∨
    ((i = .hash256 ∨ i = .hash512 ∨ i = .wrCmd 0x1 ∨ i = .wrCmd 0x11) ∧ ∃ v, t = s.startHash v) ∨
    ((i = .abort ∨ i = .wrCmd 0x2) ∧ t = s.abortHash) ∨
    (i = .stepPad ∨ i = .stepLoad ∨ i = .stepExpand ∨ i = .stepRound ∨ i = .stepFold) := by
  cases i with
  | rd r => cases h; simp
  | wrCmd c =>
    cases h
    rcases runCommand_by_word s c with hc | hc | ⟨hw, hc⟩ | ⟨hw, hc⟩
    · exact .inl hc
    · exact .inr (.inl hc)
    · exact .inr (.inr (.inr (.inr (.inr (.inl ⟨.inr (.inr (hw.imp (congrArg _) (congrArg _))), hc⟩)))))
    · exact .inr (.inr (.inr (.inr (.inr (.inr (.inl ⟨.inr (congrArg _ hw), hc⟩))))))
  | wrMsgLen d =>
    rw [exec_wrMsgLen] at h
    by_cases hb : s.busy = true
    · rw [if_pos hb] at h
      cases h
      simp
    · rw [if_neg hb] at h
      cases h
      simp [hb]
  | wrStatus d => cases h; simp
  | wrNblk d => cases h; simp
  | wrBlkcntRsv l d => cases h; simp
  | wrDigest k d => cases h; simp
  | wrWvRsv l d => cases h; simp
  | nop => cases h; simp
  | hash256 => cases h; simp
  | hash512 => cases h; simp
  | abort => cases h; simp
  | illegal c => cases h; simp
  | noStepIdle => cases h; simp
  | noStepDone => cases h; simp
  | noStepFault => cases h; simp
  | stepPad => simp
  | stepLoad => simp
  | stepExpand => simp
  | stepRound => simp
  | stepFold => simp

/-- Settles O30: by what an instruction can do. A register that a case does not write reads the same before and after,
so only the clauses on the registers it writes are left, and `i` is one of the writers there. -/
theorem registerWriters : Obligations.RegisterWriters := by
  intro i s t h hash accepted abort legacyEmpty
  rcases exec_cases h with rfl | rfl | rfl | ⟨r, rfl, rfl⟩ | ⟨d, rfl, hb, rfl⟩ | ⟨hi, v, rfl⟩ | ⟨hi, rfl⟩ |
    rfl | rfl | rfl | rfl | rfl
  · simp +contextual
  · simp +contextual
  · simp +contextual
  · simp +contextual
  · have hq := (busy_eq_false_iff s).mp hb
    simp +contextual [hq]
  · have hacc : s.busy = false → s.state ≠ .fault → accepted := fun hb hf =>
      ⟨hi, by simpa [hf] using (busy_eq_false_iff s).mp hb⟩
    rcases s.startHash_cases v with ⟨-, hc⟩ | ⟨hb, hf, hl, hp, hc⟩ | ⟨hb, hf, -, hc⟩ <;> rw [hc]
    · simp +contextual
    · simp +contextual [hacc hb hf, legacyEmpty, hl, hp]
    · simp +contextual [hacc hb hf]
  · simp +contextual [abort, hi]
  · rw [exec_stepPad] at h; cases h
    simp +contextual
  · rw [exec_stepLoad] at h; cases h
    simp +contextual
  · rw [exec_stepExpand] at h; cases h
    simp +contextual
  · rw [exec_stepRound] at h; cases h
    simp +contextual
  · rw [exec_stepFold] at h; cases h
    simp +contextual

end Sys2Proof.Machine

/-! PROOFS. The statements of 20_memory.md. -/

namespace Sys2Proof.Machine

/-! ### The message addresses that a LOAD reads (R62) -/

theorem filter_lt_range (n len : Nat) : (List.range n).filter (· < len) = List.range (min n len) := by
  rw [← List.Ico.zero_bot, ← List.Ico.zero_bot, List.Ico.filter_lt]

/-- The addresses below L of the blocks before block i, and then those that loading block i reads. -/
theorem range_append_blockReads (v : Variant) (len i : Nat) :
    List.range (min (i * blockBytes v) len) ++ blockReads v len i =
      List.range (min ((i + 1) * blockBytes v) len) := by
  rw [blockReads, ← filter_lt_range, ← filter_lt_range, ← List.filter_append, ← List.range_add, Nat.succ_mul]

/-! ### The record of message reads, STATE by STATE -/

theorem messageReadsInv_iff_of_pad {s : State} (hs : s.state = .pad) : MessageReadsInv s ↔ s.msgReads = [] := by
  simp [MessageReadsInv, hs]

theorem messageReadsInv_iff_of_load {s : State} (hs : s.state = .load) :
    MessageReadsInv s ↔ s.msgReads = List.range (min (s.blk.toNat * blockBytes s.var) s.len) := by
  simp [MessageReadsInv, hs]

/-- Once block BLK is loaded its addresses are in the record. -/
theorem messageReadsInv_iff_of_loaded {s : State} (hs : s.state ∈ [.expand, .round, .fold]) :
    MessageReadsInv s ↔ s.msgReads = List.range (min ((s.blk.toNat + 1) * blockBytes s.var) s.len) := by
  unfold MessageReadsInv
  cases hs' : s.state <;> simp_all

/-- In a quiescent STATE nothing is claimed of the record. -/
theorem messageReadsInv_of_not_busy {s : State} (hb : s.busy = false) : MessageReadsInv s := by
  rcases (busy_eq_false_iff s).mp hb with hs | hs | hs <;> simp [MessageReadsInv, hs]

/-! ### Every step keeps the record of message reads (R62) -/

section
variable {s t : State}

/-- R28: a hash begins with BLK = 0. -/
theorem MessageReadsInv.stepPad (h : MessageReadsInv s) (hseq : SequencingInv s) (hs : s.state = .pad)
    (he : exec .stepPad s = .next t) : MessageReadsInv t := by
  rw [exec_stepPad] at he
  cases he
  obtain ⟨hblk, -⟩ := (blocksInRange_iff_of_pad hs).mp hseq.blocksInRange
  have hreads : s.msgReads = [] := (messageReadsInv_iff_of_pad hs).mp h
  simp [messageReadsInv_iff_of_load, hblk, hreads]

theorem MessageReadsInv.stepLoad (h : MessageReadsInv s) (hs : s.state = .load)
    (he : exec .stepLoad s = .next t) : MessageReadsInv t := by
  rw [exec_stepLoad] at he
  cases he
  refine (messageReadsInv_iff_of_loaded (by simp)).mpr ?_
  show s.msgReads ++ blockReads s.var s.len s.blk.toNat = _
  rw [(messageReadsInv_iff_of_load hs).mp h]
  exact range_append_blockReads s.var s.len s.blk.toNat

/-- Going on to the next T, or to the next phase of the block, reads nothing. -/
theorem MessageReadsInv.advance {next : FsmState} (h : MessageReadsInv s) (hs : s.state = .expand ∨ s.state = .round)
    (hn : next = .round ∨ next = .fold) : MessageReadsInv (s.advance next) := by
  have hs' : s.state ∈ [.expand, .round, .fold] := by rcases hs with hs | hs <;> simp [hs]
  have hn' : (s.advance next).state ∈ [.expand, .round, .fold] := by
    rw [State.advance_state]
    split
    · rcases hn with rfl | rfl <;> simp
    · exact hs'
  rw [messageReadsInv_iff_of_loaded hs'] at h
  rw [messageReadsInv_iff_of_loaded hn']
  simpa [State.len] using h

theorem MessageReadsInv.stepExpand (h : MessageReadsInv s) (hs : s.state = .expand)
    (he : exec .stepExpand s = .next t) : MessageReadsInv t := by
  rw [exec_stepExpand] at he
  cases he
  exact MessageReadsInv.advance (by exact h) (.inl hs) (.inl rfl)

theorem MessageReadsInv.stepRound (h : MessageReadsInv s) (hs : s.state = .round)
    (he : exec .stepRound s = .next t) : MessageReadsInv t := by
  rw [exec_stepRound] at he
  cases he
  exact MessageReadsInv.advance (by exact h) (.inr hs) (.inr rfl)

/-- Counting BLK up does not wrap, since it is below NB (R28). -/
theorem MessageReadsInv.stepFold (h : MessageReadsInv s) (hseq : SequencingInv s) (hs : s.state = .fold)
    (he : exec .stepFold s = .next t) : MessageReadsInv t := by
  rw [exec_stepFold] at he
  cases he
  obtain ⟨-, hblk⟩ := (blocksInRange_iff_of_block (by simp [hs])).mp hseq.blocksInRange
  have hsucc : (s.blk + 1).toNat = s.blk.toNat + 1 := BitVec.toNat_add_of_lt (lt_of_le_of_lt hblk s.nb.isLt)
  by_cases hl : s.blk.toNat + 1 = s.nb.toNat
  · simp only [if_pos hl]
    exact messageReadsInv_of_not_busy rfl
  · simp only [if_neg hl]
    refine (messageReadsInv_iff_of_load rfl).mpr ?_
    show s.msgReads = List.range (min ((s.blk + 1).toNat * blockBytes s.var) s.len)
    rw [hsucc]
    exact (messageReadsInv_iff_of_loaded (by simp [hs])).mp h

theorem MessageReadsInv.engineStep (h : MessageReadsInv s) (hseq : SequencingInv s)
    (he : engineStep s = .next t) : MessageReadsInv t := by
  rcases engineStep_cases he with ⟨-, rfl⟩ | ⟨hst, rfl⟩ | ⟨hst, he⟩ | ⟨hst, he⟩ | ⟨hst, he⟩ | ⟨hst, he⟩
  · exact h
  · exact h.stepPad hseq hst (exec_stepPad s)
  · exact h.stepLoad hst he
  · exact h.stepExpand hst he
  · exact h.stepRound hst he
  · exact h.stepFold hseq hst he

/-- An accepted HASH begins the record anew. -/
theorem MessageReadsInv.startHash (h : MessageReadsInv s) (v : Variant) : MessageReadsInv (s.startHash v) := by
  rcases s.startHash_cases v with ⟨-, hc⟩ | ⟨-, -, -, -, hc⟩ | ⟨-, -, -, hc⟩ <;> rw [hc]
  · exact h
  · exact messageReadsInv_of_not_busy rfl
  · exact (messageReadsInv_iff_of_pad rfl).mpr rfl

theorem MessageReadsInv.runCommand (h : MessageReadsInv s) (c : Word) : MessageReadsInv (s.runCommand c) := by
  rcases s.runCommand_cases c with ⟨-, hc⟩ | ⟨-, -, hc⟩ | ⟨-, -, hc⟩ | ⟨-, -, -, hc⟩ <;> rw [hc]
  · exact h
  · exact h
  · exact h.startHash _
  · exact messageReadsInv_of_not_busy rfl

end

/-- Settles O39: only the engine's steps need the ranges of BLK. Of the other moves a HASH begins the record anew, a
MSG_LEN write is taken and an ABORT or reset ends in a quiescent STATE only, and the rest leave alone what the record
speaks of. -/
theorem stepKeepsMessageReads : Obligations.StepKeepsMessageReads := by
  intro s t hseq hs h
  rcases step_cases h with ⟨-, h⟩ |
    ⟨-, ⟨p, r, n, rfl⟩ | ⟨p, -, ⟨-, rfl⟩ | ⟨hb, d, rfl⟩ | ⟨w, -, rfl | rfl⟩⟩⟩ | ⟨a, b, -, rfl⟩ | ⟨-, rfl⟩ | ⟨-, rfl⟩
  · exact MessageReadsInv.engineStep (s := s.popTurn) hs { hseq with } h
  · exact hs
  · exact hs
  · exact messageReadsInv_of_not_busy hb
  · exact MessageReadsInv.runCommand (s := { s.popTurn with program := p }) hs w
  · exact hs
  · exact hs
  · exact messageReadsInv_of_not_busy rfl
  · exact hs

/-! ### Who writes the message memory (R60, R61) -/

theorem State.startHash_mem (s : State) (v : Variant) : (s.startHash v).mem = s.mem := by
  rcases s.startHash_cases v with ⟨-, hc⟩ | ⟨-, -, -, -, hc⟩ | ⟨-, -, -, hc⟩ <;> simp [hc]

/-- The engine only reads the message memory (R44, R60). -/
theorem exec_mem {i : Instr} {s t : State} (h : exec i s = .next t) : t.mem = s.mem := by
  rcases exec_cases h with rfl | rfl | rfl | ⟨r, -, rfl⟩ | ⟨d, -, -, rfl⟩ | ⟨-, v, rfl⟩ | ⟨-, rfl⟩ |
    rfl | rfl | rfl | rfl | rfl
  · rfl
  · rfl
  · rfl
  · rfl
  · rfl
  · exact s.startHash_mem v
  · rfl
  · rw [exec_stepPad] at h; cases h; rfl
  · rw [exec_stepLoad] at h; cases h; rfl
  · rw [exec_stepExpand] at h; cases h; simp
  · rw [exec_stepRound] at h; cases h; simp
  · rw [exec_stepFold] at h; cases h; rfl

theorem State.runCommand_mem (s : State) (c : Word) : (s.runCommand c).mem = s.mem := exec_mem (exec_wrCmd c s)

/-- Everything a step can do to the message memory: nothing, or another agent's write at its turn. -/
theorem step_mem_cases {s t : State} (h : step s = .next t) :
    t.mem = s.mem ∨ ∃ a b, nextTurn s = .platformWrite a b ∧ t.mem = Memory.write s.mem a.toNat b := by
  rcases step_cases h with ⟨-, h⟩ |
    ⟨-, ⟨p, r, n, rfl⟩ | ⟨p, -, ⟨-, rfl⟩ | ⟨-, d, rfl⟩ | ⟨w, -, rfl | rfl⟩⟩⟩ | ⟨a, b, ht, rfl⟩ | ⟨-, rfl⟩ | ⟨-, rfl⟩
  · exact .inl (exec_mem (s := s.popTurn) h)
  · exact .inl rfl
  · exact .inl rfl
  · exact .inl rfl
  · exact .inl (State.runCommand_mem _ w)
  · exact .inl rfl
  · exact .inr ⟨a, b, ht, rfl⟩
  · exact .inl rfl
  · exact .inl rfl

/-- Settles O31: a byte that reads differently after a step is the one written at another agent's turn. -/
theorem messageMemoryFrame : Obligations.MessageMemoryFrame := by
  refine ⟨fun i s t h a => by rw [exec_mem h], fun s t hs h x hx => ?_⟩
  rcases step_mem_cases h with hm | ⟨a, b, ht, hm⟩
  · rw [hm] at hx
    exact absurd rfl hx
  · have hxa : x = a.toNat := by
      by_contra hne
      rw [hm, Memory.read_write_of_ne _ _ hne] at hx
      exact hx rfl
    exact ⟨a, b, ht, hxa, by rw [hm, Memory.read_write hs, if_pos hxa]⟩

/-- Settles O41: another agent's write, at an address of 64 bits, keeps the canonical form, and nothing else writes. -/
theorem stepKeepsMemoryCanonical : Obligations.StepKeepsMemoryCanonical := by
  intro s t hs h
  rcases step_mem_cases h with hm | ⟨a, b, -, hm⟩
  · rw [MemoryInv, hm]
    exact hs
  · rw [MemoryInv, hm]
    exact Memory.wf_write hs a.isLt b

/-! ### Racing writes (R71) -/

/-- R71: a message read is a draw from the byte held and those it replaced. -/
theorem memRead_mem (s : State) (n j : Nat) : memRead s n j ∈ Memory.read s.mem j :: staleAt s j := by
  unfold memRead
  split
  · exact List.mem_cons_self
  next old more hst =>
    have hlt : Config.drawIndex n % (more.length + 2) < (Memory.read s.mem j :: old :: more).length :=
      Nat.mod_lt _ (by omega)
    rw [hst, List.getD_eq_getElem _ _ hlt]
    exact List.getElem_mem hlt

/-- R71 (b): a write of a byte of the message while a hash runs records the byte it replaces. -/
theorem State.platformWrite_stale_of_racing {s : State} {a : Word} (b : Byte) (hb : s.busy = true)
    (ha : a.toNat < s.len) :
    (s.platformWrite a b).stale = (a.toNat, Memory.read s.mem a.toNat) :: s.stale := by
  simp [State.platformWrite, hb, ha]

/-- R72: any other write records nothing. -/
theorem State.platformWrite_stale_of_not_racing {s : State} {a : Word} (b : Byte)
    (h : s.busy = false ∨ s.len ≤ a.toNat) : (s.platformWrite a b).stale = s.stale := by
  rcases h with h | h
  · simp [State.platformWrite, h]
  · simp [State.platformWrite, Nat.not_lt.mpr h]

theorem staleAt_congr {s t : State} (h : t.stale = s.stale) (j : Nat) : staleAt t j = staleAt s j := by
  rw [staleAt, h, staleAt]

/-- A write is recorded at its own address only. -/
theorem staleAt_platformWrite_of_ne (s : State) {a : Word} (b : Byte) {j : Nat} (hj : j ≠ a.toNat) :
    staleAt (s.platformWrite a b) j = staleAt s j := by
  by_cases hr : s.busy = true ∧ a.toNat < s.len
  · obtain ⟨hb, ha⟩ := hr
    simp [staleAt, State.platformWrite_stale_of_racing b hb ha, hj.symm]
  · refine staleAt_congr (State.platformWrite_stale_of_not_racing b ?_) j
    simpa [or_iff_not_imp_left] using hr

theorem staleAt_platformWrite_of_racing {s : State} {a : Word} (b : Byte) (hb : s.busy = true)
    (ha : a.toNat < s.len) :
    staleAt (s.platformWrite a b) a.toNat = Memory.read s.mem a.toNat :: staleAt s a.toNat := by
  simp [staleAt, State.platformWrite_stale_of_racing b hb ha]

/-- Settles O32: the draw by `memRead_mem`, and a write by what it records. -/
theorem racingReadIsADraw : Obligations.RacingReadIsADraw := by
  refine ⟨fun s n j h => memRead_of_staleAt_nil h n, memRead_mem, fun s a b h => ?turn, fun s a b hs => ?write⟩
  case turn => rw [step_of_turn h, turnStep, State.popTurn]
  case write =>
    refine ⟨?_, fun j hj => ⟨?_, staleAt_platformWrite_of_ne s b hj⟩, staleAt_platformWrite_of_racing b, ?_, ?_, rfl⟩
    · rw [State.platformWrite_mem, Memory.read_write hs, if_pos rfl]
    · rw [State.platformWrite_mem, Memory.read_write_of_ne _ _ hj]
    · exact fun ha => State.platformWrite_stale_of_not_racing b (.inr ha)
    · exact fun hb => State.platformWrite_stale_of_not_racing b (.inl hb)

/-! ### The serialized digest (R66) -/

/-- R32: index 8 + k reads DIGESTk. -/
theorem regValue_regDigest (s : State) (k : BitVec 3) : regValue s (regDigest k) = s.h[k.toNat] := by
  have hfixed : regDigest k ≠ regStatus ∧ regDigest k ≠ regMsgLen ∧ regDigest k ≠ regNblk ∧
      regDigest k ≠ regBlkcnt := by
    revert k
    decide
  have hfields : (regDigest k).extractLsb' 3 2 = 1 ∧ (regDigest k).extractLsb' 0 3 = k := by
    revert k
    decide
  obtain ⟨h1, h2, h3, h4⟩ := hfixed
  obtain ⟨hbank, hk⟩ := hfields
  simp only [regValue, if_neg h1, if_neg h2, if_neg h3, if_neg h4, if_pos hbank, hk]

theorem wordBytes_pos (v : Variant) : 0 < wordBytes v := by cases v <;> decide

theorem width_eq_mul_wordBytes (v : Variant) : width v = 8 * wordBytes v := by cases v <;> rfl

/-- Byte m of a number, counted from the least significant, is one of its low W bits when m < ws. -/
theorem toNat_lowWord_byte (v : Variant) (x : Word) {m : Nat} (hm : m < wordBytes v) :
    (lowWord v x).toNat / 256 ^ m % 256 = x.toNat / 256 ^ m % 256 := by
  have hw : 2 ^ width v = 256 ^ m * 256 ^ (wordBytes v - m) := by
    rw [width_eq_mul_wordBytes, Nat.pow_mul, ← Nat.pow_add, Nat.add_sub_cancel' hm.le]
  rw [lowWord, BitVec.toNat_setWidth, hw, Nat.mod_mul_right_div_self]
  exact Nat.mod_mod_of_dvd _ (dvd_pow_self 256 (by omega))

/-- Shifting right by whole bytes and keeping the lowest one. -/
theorem toNat_byte_shiftRight (x : Word) (m : Nat) :
    ((x >>> (8 * m)).setWidth 8).toNat = x.toNat / 256 ^ m % 256 := by
  rw [BitVec.toNat_setWidth, BitVec.toNat_ushiftRight, Nat.shiftRight_eq_div_pow, Nat.pow_mul]

/-- Settles O49: byte n stands in DIGEST[n div ws], and within its W bits. -/
theorem serializedDigestBigEndian : Obligations.SerializedDigestBigEndian := by
  intro s n hn
  have hpos := wordBytes_pos s.var
  have hk : (BitVec.ofNat 3 (n / wordBytes s.var)).toNat = n / wordBytes s.var := Nat.mod_eq_of_lt hn
  rw [digestByte, regValue_regDigest, toNat_byte_shiftRight, toNat_lowWord_byte _ _ (by omega)]
  simp only [hk]

end Sys2Proof.Machine

/-! PROOFS. The statements of 30_encoding.md. -/

namespace Sys2Proof.Machine

/-! ### The HOST rows (R80, R81) -/

/-- Every header stands in one row of the opcode table, with that row's operand in its low bits. -/
theorem headerCases {motive : BitVec 6 → Prop} (rd : ∀ ridx, motive (mkHeader false ridx))
    (wrCmd : motive (mkHeader true 0)) (wrStatus : motive (mkHeader true 1)) (wrMsgLen : motive (mkHeader true 2))
    (wrNblk : motive (mkHeader true 3))
    (wrBlkcntRsv : ∀ low : BitVec 2, motive (mkHeader true ((1 : BitVec 3) ++ low)))
    (wrDigest : ∀ k : BitVec 3, motive (mkHeader true ((1 : BitVec 2) ++ k)))
    (wrWvRsv : ∀ low : BitVec 4, motive (mkHeader true ((1 : BitVec 1) ++ low))) (header : BitVec 6) :
    motive header := by
  have hrow : (∃ ridx, header = mkHeader false ridx) ∨ header = mkHeader true 0 ∨ header = mkHeader true 1 ∨
      header = mkHeader true 2 ∨ header = mkHeader true 3 ∨
      (∃ low : BitVec 2, header = mkHeader true ((1 : BitVec 3) ++ low)) ∨
      (∃ k : BitVec 3, header = mkHeader true ((1 : BitVec 2) ++ k)) ∨
      ∃ low : BitVec 4, header = mkHeader true ((1 : BitVec 1) ++ low) := by
    revert header
    decide
  rcases hrow with ⟨ridx, rfl⟩ | rfl | rfl | rfl | rfl | ⟨low, rfl⟩ | ⟨k, rfl⟩ | ⟨low, rfl⟩
  · exact rd ridx
  · exact wrCmd
  · exact wrStatus
  · exact wrMsgLen
  · exact wrNblk
  · exact wrBlkcntRsv low
  · exact wrDigest k
  · exact wrWvRsv low

/-- A read has no WDATA: its instruction does not depend on the data lines (R80). -/
theorem decodeHost_of_read {header : BitVec 6} (h : headerWE header = false) (d : Word) :
    decodeHost header d = .rd (headerIndex header) := by
  have hmask : header &&& 0x20 = 0x00 := by
    revert header
    decide
  rw [decodeHost, if_pos hmask]

theorem headerWE_mkHeader (we : Bool) (ridx : BitVec 5) : headerWE (mkHeader we ridx) = we := by
  revert we ridx
  decide

theorem headerIndex_mkHeader (we : Bool) (ridx : BitVec 5) : headerIndex (mkHeader we ridx) = ridx := by
  revert we ridx
  decide

theorem decodeHost_rd (ridx : BitVec 5) (d : Word) : decodeHost (mkHeader false ridx) d = .rd ridx := by
  rw [decodeHost_of_read (headerWE_mkHeader false ridx), headerIndex_mkHeader]

theorem decodeHost_wrBlkcntRsv (low : BitVec 2) (d : Word) :
    decodeHost (mkHeader true ((1 : BitVec 3) ++ low)) d = .wrBlkcntRsv low d := by
  obtain ⟨n⟩ := low
  fin_cases n <;> rfl

theorem decodeHost_wrDigest (k : BitVec 3) (d : Word) :
    decodeHost (mkHeader true ((1 : BitVec 2) ++ k)) d = .wrDigest k d := by
  obtain ⟨n⟩ := k
  fin_cases n <;> rfl

theorem decodeHost_wrWvRsv (low : BitVec 4) (d : Word) :
    decodeHost (mkHeader true ((1 : BitVec 1) ++ low)) d = .wrWvRsv low d := by
  obtain ⟨n⟩ := low
  fin_cases n <;> rfl

/-! ### The CMD rows (R82 to R84, R86) -/

/-- The fields of a legal word leave four words (R84). -/
theorem cmdLegal_iff_word (c : Word) : cmdLegal c = true ↔ c = 0x0 ∨ c = 0x1 ∨ c = 0x11 ∨ c = 0x2 := by
  constructor
  · intro hl
    obtain ⟨hrsv, hop, hv⟩ := (cmdLegal_iff c).mp hl
    rw [← cmdWord_fields c, hrsv]
    rcases hop with hop | hop | hop <;> rw [hop] at hv ⊢
    · rw [hv.resolve_right (by decide)]
      exact .inl rfl
    · cases cmdV c
      · exact .inr (.inl rfl)
      · exact .inr (.inr (.inl rfl))
    · rw [hv.resolve_right (by decide)]
      exact .inr (.inr (.inr rfl))
  · rintro (rfl | rfl | rfl | rfl) <;> rfl

/-- The ILLEGAL row applies when no other CMD row matches (R84, R86). -/
theorem decodeCommand_of_not_legal {c : Word} (h : cmdLegal c = false) : decodeCommand c = .illegal c := by
  have hc := (cmdLegal_iff_word c).not.mp (by simp [h])
  push Not at hc
  obtain ⟨h0, h1, h11, h2⟩ := hc
  rw [decodeCommand, if_neg h0, if_neg h1, if_neg h11, if_neg h2]

/-- Every command word stands in one row of the opcode table. -/
theorem commandCases {motive : Word → Prop} (nop : motive 0x0) (hash256 : motive 0x1) (hash512 : motive 0x11)
    (abort : motive 0x2) (illegal : ∀ c, cmdLegal c = false → motive c) (c : Word) : motive c := by
  cases hl : cmdLegal c with
  | false => exact illegal c hl
  | true =>
    rcases (cmdLegal_iff_word c).mp hl with rfl | rfl | rfl | rfl
    · exact nop
    · exact hash256
    · exact hash512
    · exact abort

theorem decodeCommand_eq_illegal_iff (c : Word) : decodeCommand c = .illegal c ↔ cmdLegal c = false := by
  refine ⟨fun h => ?_, decodeCommand_of_not_legal⟩
  cases c using commandCases with
  | nop => exact absurd h (by decide)
  | hash256 => exact absurd h (by decide)
  | hash512 => exact absurd h (by decide)
  | abort => exact absurd h (by decide)
  | illegal c hl => exact hl

theorem toNat_cmdRsv (c : Word) : (cmdRsv c).toNat = c.toNat / 2 ^ 5 := by
  rw [cmdRsv, BitVec.extractLsb'_toNat, Nat.shiftRight_eq_div_pow]
  omega

theorem toNat_cmdOp (c : Word) : (cmdOp c).toNat = c.toNat % 2 ^ 4 := by
  rw [cmdOp, BitVec.extractLsb'_toNat, Nat.shiftRight_zero]

theorem cmdV_eq_false_iff (c : Word) : cmdV c = false ↔ c.toNat / 2 ^ 4 % 2 = 0 := by
  rw [cmdV, BitVec.getLsbD, Nat.testBit_eq_decide_div_mod_eq, decide_eq_false_iff_not]
  omega

/-- The three conditions of R84 on the word as a number. -/
theorem cmdLegal_iff_toNat (c : Word) : cmdLegal c = true ↔
    c.toNat / 2 ^ 5 = 0 ∧ (c.toNat % 2 ^ 4 = 0 ∨ c.toNat % 2 ^ 4 = 1 ∨ c.toNat % 2 ^ 4 = 2) ∧
      (c.toNat / 2 ^ 4 % 2 = 0 ∨ c.toNat % 2 ^ 4 = 1) := by
  rw [cmdLegal_iff, cmdV_eq_false_iff]
  simp only [← BitVec.toNat_inj, toNat_cmdRsv, toNat_cmdOp]
  rfl

/-- Settles O4: the conditions as numbers, the four words they leave, and the row that takes every other word. -/
theorem legalCommandWords : Obligations.LegalCommandWords := fun c =>
  ⟨cmdLegal_iff_toNat c, cmdLegal_iff_word c, (decodeCommand_eq_illegal_iff c).symm⟩

/-! ### Decoding and encoding are inverse (R80 to R87) -/

/-- Settles O1: by the rows of the opcode table. Only ILLEGAL needs that the word stands in no other row. -/
theorem decodeEncodeRoundTrip : Obligations.DecodeEncodeRoundTrip := by
  intro i hi
  cases i with
  | rd ridx => exact decodeHost_rd ridx 0
  | wrBlkcntRsv low d => exact decodeHost_wrBlkcntRsv low d
  | wrDigest k d => exact decodeHost_wrDigest k d
  | wrWvRsv low d => exact decodeHost_wrWvRsv low d
  | illegal c => exact decodeCommand_of_not_legal (by simpa [WellFormed] using hi)
  | wrCmd d => rfl
  | wrStatus d => rfl
  | wrMsgLen d => rfl
  | wrNblk d => rfl
  | nop => rfl
  | hash256 => rfl
  | hash512 => rfl
  | abort => rfl
  | noStepIdle => rfl
  | stepPad => rfl
  | stepLoad => rfl
  | stepExpand => rfl
  | stepRound => rfl
  | stepFold => rfl
  | noStepDone => rfl
  | noStepFault => rfl

/-- A transaction decodes to a well-formed instruction and encodes back, a read with zero data lines. -/
theorem encode_decodeHost (header : BitVec 6) (d : Word) : WellFormed (decodeHost header d) = true ∧
    ((headerWE header = false → d = 0) → encode (decodeHost header d) = .host header d) := by
  cases header using headerCases with
  | rd ridx =>
    rw [decodeHost_rd, headerWE_mkHeader]
    refine ⟨rfl, fun hd => ?_⟩
    rw [hd rfl]
    rfl
  | wrBlkcntRsv low => rw [decodeHost_wrBlkcntRsv]; exact ⟨rfl, fun _ => rfl⟩
  | wrDigest k => rw [decodeHost_wrDigest]; exact ⟨rfl, fun _ => rfl⟩
  | wrWvRsv low => rw [decodeHost_wrWvRsv]; exact ⟨rfl, fun _ => rfl⟩
  | wrCmd => exact ⟨rfl, fun _ => rfl⟩
  | wrStatus => exact ⟨rfl, fun _ => rfl⟩
  | wrMsgLen => exact ⟨rfl, fun _ => rfl⟩
  | wrNblk => exact ⟨rfl, fun _ => rfl⟩

theorem encode_decodeCommand (c : Word) :
    WellFormed (decodeCommand c) = true ∧ encode (decodeCommand c) = .command c := by
  cases c using commandCases with
  | nop => exact ⟨rfl, rfl⟩
  | hash256 => exact ⟨rfl, rfl⟩
  | hash512 => exact ⟨rfl, rfl⟩
  | abort => exact ⟨rfl, rfl⟩
  | illegal c hl =>
    rw [decodeCommand_of_not_legal hl]
    exact ⟨by simp [WellFormed, hl], rfl⟩

theorem encode_decodeState (code : BitVec 3) :
    WellFormed (decodeState code) = true ∧ encode (decodeState code) = .stateCode code := by
  revert code
  decide

/-- Settles O2: by the three encoded things; only a transaction uses the premise. -/
theorem encodeDecodeRoundTrip : Obligations.EncodeDecodeRoundTrip := by
  intro e
  cases e with
  | host header d =>
    obtain ⟨hwf, henc⟩ := encode_decodeHost header d
    exact ⟨hwf, fun hd => henc (hd header d rfl)⟩
  | command c =>
    obtain ⟨hwf, henc⟩ := encode_decodeCommand c
    exact ⟨hwf, fun _ => henc⟩
  | stateCode code =>
    obtain ⟨hwf, henc⟩ := encode_decodeState code
    exact ⟨hwf, fun _ => henc⟩

/-! ### Numbers (R80, R82, R87, R88) -/

theorem decodeRaw_rawOf_host (header : BitVec 6) (d : Word) :
    decodeRaw (rawOf (.host header d)).1 (rawOf (.host header d)).2 = .ok (decodeHost header d) := by
  have hh := header.isLt
  have hd := d.isLt
  cases hwe : headerWE header with
  | false =>
    have hn : rawOf (.host header d) = (.host, header.toNat) := by simp [rawOf, hwe]
    have hbits : header.toNat < 2 ^ transactionBits header := by simpa [transactionBits, hwe] using hh
    simp only [hn, decodeRaw, BitVec.ofNat_toNat, BitVec.setWidth_eq, if_pos hbits, decode, decodeHost_of_read hwe]
  | true =>
    have hn : rawOf (.host header d) = (.host, header.toNat + d.toNat * 2 ^ 6) := by simp [rawOf, hwe]
    have hheader : BitVec.ofNat 6 (header.toNat + d.toNat * 2 ^ 6) = header := by
      apply BitVec.eq_of_toNat_eq
      rw [BitVec.toNat_ofNat]
      omega
    have hdata : (header.toNat + d.toNat * 2 ^ 6) / 2 ^ 6 = d.toNat := by omega
    have hbits : header.toNat + d.toNat * 2 ^ 6 < 2 ^ transactionBits header := by
      rw [transactionBits, if_pos hwe]
      omega
    simp only [hn, decodeRaw, hheader, hdata, if_pos hbits, decode, BitVec.ofNat_toNat, BitVec.setWidth_eq]

/-- The number of an encoded thing is read as that thing. -/
theorem decodeRaw_rawOf (e : Encoded) : decodeRaw (rawOf e).1 (rawOf e).2 = .ok (decode e) := by
  cases e with
  | host header d => exact decodeRaw_rawOf_host header d
  | command c => simp [rawOf, decodeRaw, c.isLt]
  | stateCode code => simp [rawOf, decodeRaw, code.isLt]

/-- WE is bit 5 of the number, and decides the length (R80, R88). -/
theorem transactionBits_ofNat (w : Nat) : transactionBits (BitVec.ofNat 6 w) = if w.testBit 5 then 70 else 6 := by
  simp only [transactionBits, headerWE, BitVec.getLsbD_ofNat]
  rfl

/-- Settles O3: the number of an encoding is read back, so O1 gives the first clause; in the others the one test of
`decodeRaw` fails. -/
theorem rawDecodeByLength : Obligations.RawDecodeByLength := by
  refine ⟨fun i hi => ?roundTrip, fun w => ?host, fun w => ?cmd, fun w => ?stateCode⟩
  case roundTrip => rw [decodeRaw_rawOf, decodeEncodeRoundTrip i hi]
  all_goals simp only [decodeRaw, transactionBits_ofNat, ite_eq_right_iff, reduceCtorEq, imp_false, Nat.not_lt]

/-- Settles O5: closed words, each decoded by evaluation. -/
theorem sampleWordsDecode : Obligations.SampleWordsDecode :=
  ⟨rfl, rfl, rfl, rfl, rfl, rfl, rfl, rfl, rfl, rfl, rfl⟩

/-! ### The engine's turn and the host's polls (R87, R89) -/

/-- Settles O7: one equation of `engineStep` for each STATE. -/
theorem stateSelectsEngineStep : Obligations.StateSelectsEngineStep :=
  ⟨rfl, fun _ => ⟨engineStep_idle, engineStep_pad, engineStep_load, engineStep_expand, engineStep_round,
    engineStep_fold, engineStep_done, engineStep_fault⟩⟩

/-- With reset not held a poll reads its register and then goes by the value read (R89). -/
theorem pollStep_of_not_resetHeld {s : State} (h : s.resetHeld = false) (reg : BitVec 5) (mask value : Word) :
    pollStep reg mask value s = .next ({ s with rdata := regValue s reg }.afterPoll reg mask value) := by
  rw [pollStep, hostStep_of_not_resetHeld h, decode_pollEncoded, exec_rd]

/-- Settles O8: the poll is taken from the program for its read, and put back when the value does not match. -/
theorem pollReadsUntilMatch : Obligations.PollReadsUntilMatch := by
  intro s reg mask value rest ht hp hr
  have hstep : step s = .next ({ s with turns := s.turns.tail, program := rest, rdata := regValue s reg }.afterPoll
      reg mask value) := by
    rw [step_of_host_cons ht hp]
    exact pollStep_of_not_resetHeld (s := { s with turns := s.turns.tail, program := rest }) hr reg mask value
  refine ⟨fun hmatch => ?_, fun hdiffers => ?_⟩
  · rw [hstep, State.afterPoll, if_pos hmatch]
  · rw [hstep, State.afterPoll, if_neg hdiffers, hp]

/-! ### No encoding traps (R81, R86, R87, R220) -/

theorem exec_completes (i : Instr) (s : State) : ∃ t, exec i s = .next t := by
  cases i <;> exact ⟨_, rfl⟩

/-- With reset held or not, a transaction answers a next state. -/
theorem hostStep_completes (e : Encoded) (s : State) : ∃ t, hostStep e s = .next t := by
  cases hr : s.resetHeld with
  | false => rw [hostStep_of_not_resetHeld hr]; exact exec_completes _ s
  | true => exact ⟨s.heldTransaction e, if_pos hr⟩

theorem opStep_completes (op : HostOp) (s : State) : ∃ t, opStep op s = .next t := by
  cases op with
  | transaction header d => exact hostStep_completes _ s
  | command c => exact hostStep_completes _ s
  | poll reg mask value =>
    obtain ⟨t, ht⟩ := hostStep_completes (pollEncoded reg) s
    exact ⟨t.afterPoll reg mask value, by rw [opStep, pollStep, ht]⟩

theorem turnStep_completes (turn : Turn) (s : State) : ∃ t, turnStep turn s = .next t := by
  cases turn with
  | engine => exact exec_completes _ s
  | host =>
    cases hp : s.program with
    | nil => exact ⟨s, hostTurn_nil hp⟩
    | cons op rest => rw [turnStep, hostTurn_cons hp]; exact opStep_completes op _
  | platformWrite a b => exact ⟨_, rfl⟩
  | resetOn => exact ⟨_, rfl⟩
  | resetOff => exact ⟨_, rfl⟩

/-- Settles O9: every arm of `exec` and every agent's turn answers a next state. -/
theorem everyInstructionCompletes : Obligations.EveryInstructionCompletes :=
  ⟨exec_completes, fun s => turnStep_completes (nextTurn s) s.popTurn⟩

end Sys2Proof.Machine

/-! PROOFS. The statements of 40_word_arithmetic.md. -/

namespace Sys2Proof.Machine

/-! ### Rotation (R101) -/

/-- On the amounts of the model ROTR is the library's rotation, which takes its amount modulo W. -/
theorem rotr_eq_rotateRight {w : Nat} (n : Amount w) (x : BitVec w) : rotr n x = x.rotateRight n.val := by
  obtain ⟨n, -, hlt⟩ := n
  rw [rotr, BitVec.rotateRight_def, Nat.mod_eq_of_lt hlt]

theorem getLsbD_rotr {w : Nat} (n : Amount w) (x : BitVec w) {i : Nat} (hi : i < w) :
    (rotr n x).getLsbD i = x.getLsbD ((i + n.val) % w) := by
  rw [rotr_eq_rotateRight, BitVec.getLsbD_rotateRight]
  obtain ⟨n, hpos, hlt⟩ := n
  rw [Nat.mod_eq_of_lt hlt]
  by_cases hwrap : i < w - n
  · have hmod : (i + n) % w = n + i := by rw [Nat.mod_eq_of_lt (by omega), Nat.add_comm]
    simp [hwrap, hmod]
  · have hmod : (i + n) % w = i - (w - n) := by
      rw [Nat.mod_eq_sub_mod (by omega), Nat.mod_eq_of_lt (by omega)]
      omega
    simp [hwrap, hmod, hi]

theorem rotr_zero {w : Nat} (n : Amount w) : rotr n (0 : BitVec w) = 0 := by
  rw [rotr, BitVec.ofNat_eq_ofNat, BitVec.zero_ushiftRight, BitVec.zero_shiftLeft, BitVec.or_zero]

theorem rotr_allOnes {w : Nat} (n : Amount w) : rotr n (BitVec.allOnes w) = BitVec.allOnes w := by
  refine BitVec.eq_of_getLsbD_eq fun i hi => ?_
  have hmod : (i + n.val) % w < w := Nat.mod_lt _ (by omega)
  rw [getLsbD_rotr n _ hi, BitVec.getLsbD_allOnes, BitVec.getLsbD_allOnes, decide_eq_true hmod, decide_eq_true hi]

/-- Settles O43: the formula is the definition's, the bits and the two fixed words are the lemmas above. -/
theorem rotateRightBits : Obligations.RotateRightBits := fun _ n x =>
  ⟨rfl, fun _ hi => getLsbD_rotr n x hi, rotr_zero n, rotr_allOnes n⟩

/-! ### Shift (R102) -/

theorem toNat_shr {w : Nat} (n : Amount w) (x : BitVec w) : (shr n x).toNat = x.toNat / 2 ^ n.val := by
  rw [shr, BitVec.toNat_ushiftRight, Nat.shiftRight_eq_div_pow]

theorem toNat_shr_lt {w : Nat} (n : Amount w) (x : BitVec w) : (shr n x).toNat < 2 ^ (w - n.val) :=
  BitVec.toNat_ushiftRight_lt x n.val n.property.2.le

/-- Settles O44: the quotient, and its bound from the amount being at most W. -/
theorem shiftRightValue : Obligations.ShiftRightValue := fun _ n x => ⟨toNat_shr n x, toNat_shr_lt n x⟩

end Sys2Proof.Machine

/-! PROOFS. The statements of 41_padding.md. -/

namespace Sys2Proof.Machine

/-! ### The block count (R122) -/

theorem blockBytes_pos (v : Variant) : 0 < blockBytes v := by cases v <;> decide

/-- NB rounds up: it is the ceiling of (L + 1 + F) / B. -/
theorem numBlocks_eq_ceilDiv (v : Variant) (len : Nat) :
    numBlocks v len = (len + 1 + lengthBytes v) ⌈/⌉ blockBytes v := by
  rw [numBlocks, Nat.ceilDiv_eq_add_pred_div]
  congr 1
  omega

/-- The numbers of blocks that hold the message, the 0x80 byte and the length field are those from NB on. -/
theorem numBlocks_le_iff (v : Variant) (len n : Nat) :
    numBlocks v len ≤ n ↔ len + 1 + lengthBytes v ≤ n * blockBytes v := by
  rw [numBlocks_eq_ceilDiv, ceilDiv_le_iff_le_mul (blockBytes_pos v), Nat.mul_comm]

/-- The padded message holds the message, the 0x80 byte and the length field. -/
theorem len_add_le_paddedBytes (v : Variant) (len : Nat) : len + 1 + lengthBytes v ≤ paddedBytes v len :=
  (numBlocks_le_iff v len _).mp le_rfl

/-- Settles O47: NB is a ceiling, and so the least of the numbers of blocks that suffice; F + B is 72 or 144. -/
theorem blockCountIsLeast : Obligations.BlockCountIsLeast := fun v len =>
  ⟨len_add_le_paddedBytes v len, fun n => (numBlocks_le_iff v len n).mpr, rfl, rfl, rfl⟩

/-! ### The bytes of the padded message (R121) -/

section
variable {v : Variant} {len : Nat} (msg : Nat → Byte) {j : Nat}

theorem padByte_of_lt_len (hj : j < len) : padByte v len msg j = msg j := if_pos hj

theorem padByte_len : padByte v len msg len = 0x80 := by simp [padByte]

theorem padByte_of_zeros (hlen : len < j) (hj : j < paddedBytes v len - lengthBytes v) :
    padByte v len msg j = 0x00 := by
  rw [padByte, if_neg (by omega), if_neg (by omega), if_pos hj]

/-- Byte i of the length field is byte F - 1 - i of BL, counted from the least significant (R64). -/
theorem toNat_padByte_lengthField (i : Nat) :
    (padByte v len msg (paddedBytes v len - lengthBytes v + i)).toNat =
      bitLength v len / 256 ^ (lengthBytes v - 1 - i) % 256 := by
  have hfits := len_add_le_paddedBytes v len
  rw [padByte, if_neg (by omega), if_neg (by omega), if_neg (by omega), Nat.add_sub_cancel_left,
    BitVec.toNat_ofNat, Nat.shiftRight_eq_div_pow, Nat.pow_mul]

end

/-! ### The length field read back (R64, R124) -/

/-- Reading big-endian n bytes of a number gives the number modulo 256^n. -/
theorem sum_bigEndian_bytes (x n : Nat) :
    ((List.range n).map fun i => x / 256 ^ (n - 1 - i) % 256 * 256 ^ (n - 1 - i)).sum = x % 256 ^ n := by
  induction n with
  | zero => simp [Nat.mod_one]
  | succ n ih =>
    have htail (i : Nat) : n + 1 - 1 - (i + 1) = n - 1 - i := by omega
    rw [List.range_succ_eq_map, List.map_cons, List.map_map, List.sum_cons, Nat.mod_pow_succ]
    simp only [Function.comp_def, Nat.succ_eq_add_one, htail, ih]
    rw [Nat.sub_zero, Nat.add_sub_cancel, Nat.mul_comm, Nat.add_comm]

/-- BL fits in the F bytes of the length field. -/
theorem bitLength_mod (v : Variant) (len : Nat) : bitLength v len % 256 ^ lengthBytes v = bitLength v len := by
  rw [bitLength, Nat.pow_mul]
  exact Nat.mod_mod _ _

/-- Settles O48: one lemma for each range of positions; the bytes from P - F on are those of BL. -/
theorem paddedMessageBytes : Obligations.PaddedMessageBytes := by
  intro v len msg
  refine ⟨fun j => padByte_of_lt_len msg, padByte_len msg, fun j => padByte_of_zeros msg, ?lengthField⟩
  case lengthField =>
    simp only [toNat_padByte_lengthField, sum_bigEndian_bytes, bitLength_mod]
    rfl

end Sys2Proof.Machine

/-! PROOFS. The statements of 42_schedule.md. -/

namespace Sys2Proof.Machine

/-! ### The sigma functions bit by bit (R141, R142, R162, R163) -/

theorem getLsbD_shr {w : Nat} (n : Amount w) (x : BitVec w) (i : Nat) :
    (shr n x).getLsbD i = x.getLsbD (i + n.val) := by
  rw [shr, BitVec.getLsbD_ushiftRight, Nat.add_comm]

theorem getLsbD_smallSigma {w : Nat} (a : SigmaAmounts w) (x : BitVec w) {i : Nat} (hi : i < w) :
    (smallSigma a x).getLsbD i =
      (x.getLsbD ((i + a.first.val) % w) ^^ x.getLsbD ((i + a.second.val) % w) ^^ x.getLsbD (i + a.third.val)) := by
  rw [smallSigma, BitVec.getLsbD_xor, BitVec.getLsbD_xor, getLsbD_rotr _ x hi, getLsbD_rotr _ x hi, getLsbD_shr]

theorem getLsbD_bigSigma {w : Nat} (a : SigmaAmounts w) (x : BitVec w) {i : Nat} (hi : i < w) :
    (bigSigma a x).getLsbD i =
      (x.getLsbD ((i + a.first.val) % w) ^^ x.getLsbD ((i + a.second.val) % w) ^^
        x.getLsbD ((i + a.third.val) % w)) := by
  rw [bigSigma, BitVec.getLsbD_xor, BitVec.getLsbD_xor, getLsbD_rotr _ x hi, getLsbD_rotr _ x hi,
    getLsbD_rotr _ x hi]

/-- Settles O46: the bits of the two forms of a sigma, at the amounts of the model's tables. -/
theorem sigmaFunctionBits : Obligations.SigmaFunctionBits :=
  ⟨fun x _ hi => ⟨getLsbD_smallSigma (ssig0Amounts .v32) x hi, getLsbD_smallSigma (ssig1Amounts .v32) x hi,
      getLsbD_bigSigma (bsig0Amounts .v32) x hi, getLsbD_bigSigma (bsig1Amounts .v32) x hi⟩,
    fun x _ hi => ⟨getLsbD_smallSigma (ssig0Amounts .v64) x hi, getLsbD_smallSigma (ssig1Amounts .v64) x hi,
      getLsbD_bigSigma (bsig0Amounts .v64) x hi, getLsbD_bigSigma (bsig1Amounts .v64) x hi⟩⟩

/-! ### Runs with no turn listed (R265) -/

/-- While the engine is busy and no turn is listed, a step is the engine's. -/
theorem step_of_busy {s : State} (hb : s.busy = true) (ht : s.turns = []) : step s = engineStep s := by
  have hturn : nextTurn s = .engine := by rw [nextTurn_nil ht, if_pos (.inl hb)]
  have hpop : s.popTurn = s := by rw [State.popTurn, ht, List.tail_nil, ← ht]
  rw [step_of_turn hturn, turnStep, hpop]

theorem step_of_load {s : State} (hs : s.state = .load) (ht : s.turns = []) : step s = exec .stepLoad s := by
  rw [step_of_busy (by rw [State.busy, hs]; rfl) ht, engineStep_load hs]

theorem step_of_expand {s : State} (hs : s.state = .expand) (ht : s.turns = []) : step s = exec .stepExpand s := by
  rw [step_of_busy (by rw [State.busy, hs]; rfl) ht, engineStep_expand hs]

/-! ### What the steps of a block before FOLD leave alone (R201, R202) -/

/-- `t` is `s` but for Ws, V, T, STATE and the model's own records, which are all that a block's steps write before
FOLD. -/
def SameBlock (s t : State) : Prop := ∃ ws v T state msgReads fresh,
  t = { s with ws := ws, v := v, t := T, state := state, msgReads := msgReads, fresh := fresh }

section
variable {s t : State}

theorem SameBlock.var (h : SameBlock s t) : t.var = s.var := by
  obtain ⟨_, _, _, _, _, _, rfl⟩ := h
  rfl

theorem SameBlock.turns (h : SameBlock s t) : t.turns = s.turns := by
  obtain ⟨_, _, _, _, _, _, rfl⟩ := h
  rfl

theorem SameBlock.trans {u : State} (h : SameBlock s t) (h' : SameBlock t u) : SameBlock s u := by
  obtain ⟨_, _, _, _, _, _, rfl⟩ := h
  obtain ⟨ws, v, T, state, msgReads, fresh, rfl⟩ := h'
  exact ⟨ws, v, T, state, msgReads, fresh, rfl⟩

theorem SameBlock.advance (s : State) (next : FsmState) : SameBlock s (s.advance next) := by
  by_cases hl : s.t.toNat = rounds s.var - 1
  · rw [State.advance_last hl]
    exact ⟨s.ws, s.v, 0, next, s.msgReads, s.fresh, rfl⟩
  · rw [State.advance_more hl]
    exact ⟨s.ws, s.v, s.t + 1, s.state, s.msgReads, s.fresh, rfl⟩

theorem SameBlock.stepLoad (he : exec .stepLoad s = .next t) : SameBlock s t := by
  rw [exec_stepLoad] at he
  cases he
  exact ⟨_, _, _, _, _, _, rfl⟩

theorem SameBlock.stepExpand (he : exec .stepExpand s = .next t) : SameBlock s t := by
  rw [exec_stepExpand] at he
  cases he
  exact .trans ⟨_, s.v, s.t, s.state, s.msgReads, _, rfl⟩ (.advance _ _)

/-! ### T and STATE after EXPAND (R202) -/

theorem exec_stepExpand_t (he : exec .stepExpand s = .next t) :
    t.t = if s.t.toNat = rounds s.var - 1 then 0 else s.t + 1 := by
  rw [exec_stepExpand] at he
  cases he
  exact State.advance_t _ _

theorem exec_stepExpand_state (he : exec .stepExpand s = .next t) :
    t.state = if s.t.toNat = rounds s.var - 1 then .round else s.state := by
  rw [exec_stepExpand] at he
  cases he
  exact State.advance_state _ _

/-! ### The schedule in Ws (R140) -/

/-- Ws holds the first `n` entries of the schedule of block BLK of the message in memory, and V what LOAD made of
H. -/
structure ScheduledUpTo (n : Nat) (s : State) : Prop where
  ws : ∀ k : Fin 80, k.val < n →
    s.ws[k] = zext64 ((blockSchedule s.var s.len (Memory.read s.mem) s.blk.toNat).getD k.val 0)
  v : ∀ k : Fin 8, s.v[k] = zext64 (lowWord s.var s.h[k])

/-- In a stable hash LOAD reads the native words of the block (R63, R143). -/
theorem loadWord_of_stale_nil (hst : s.stale = []) (k : Nat) :
    loadWord s k = zext64 (blockWord s.var s.len (Memory.read s.mem) s.blk.toNat k) := by
  rw [loadWord, machinePadByte_of_stale_nil hst, blockWord]

/-- Where Ws holds a schedule up to T, EXPAND computes its entry T (R144). -/
theorem expandWord_eq_schedule {block : List (BitVec (width s.var))} (hb : block.length = 16) (h16 : 16 ≤ s.t.toNat)
    (hN : s.t.toNat < rounds s.var)
    (hws : ∀ k : Fin 80, k.val < s.t.toNat → s.ws[k] = zext64 ((schedule s.var block).getD k.val 0)) :
    expandWord s = (schedule s.var block).getD s.t.toNat 0 := by
  have entry (i : Nat) (hi : i < 80) (hlt : i < s.t.toNat) : schedEntry s i hi = (schedule s.var block).getD i 0 := by
    rw [schedEntry, show s.ws[i] = _ from hws ⟨i, hi⟩ hlt, lowWord_zext64]
  rw [schedule_getD_step hb h16 hN, expandWord, dif_pos ⟨h16, hN⟩]
  simp (disch := omega) only [entry]

theorem ScheduledUpTo.advance {n : Nat} (h : ScheduledUpTo n s) (next : FsmState) :
    ScheduledUpTo n (s.advance next) := by
  by_cases hl : s.t.toNat = rounds s.var - 1
  · rw [State.advance_last hl]
    exact ⟨h.ws, h.v⟩
  · rw [State.advance_more hl]
    exact ⟨h.ws, h.v⟩

/-- LOAD writes the block's words, entries 0 to 15 (R143, R201). -/
theorem ScheduledUpTo.stepLoad (hst : s.stale = []) (he : exec .stepLoad s = .next t) : ScheduledUpTo 16 t := by
  rw [exec_stepLoad] at he
  cases he
  refine ⟨fun k hk => ?_, fun k => by simp⟩
  rw [blockSchedule_getD_block hk]
  simp only [Fin.getElem_fin, Vector.getElem_ofFn, if_pos hk]
  exact loadWord_of_stale_nil hst k.val

/-- EXPAND adds entry T (R145, R202). -/
theorem ScheduledUpTo.stepExpand (h : ScheduledUpTo s.t.toNat s) (h16 : 16 ≤ s.t.toNat)
    (hN : s.t.toNat < rounds s.var) (he : exec .stepExpand s = .next t) : ScheduledUpTo (s.t.toNat + 1) t := by
  rw [exec_stepExpand] at he
  cases he
  apply ScheduledUpTo.advance
  refine ⟨fun k hk => ?_, h.v⟩
  rw [expandWord_eq_schedule (blockWords_length ..) h16 hN h.ws]
  simp only [Fin.getElem_fin, Vector.getElem_setIfInBounds]
  split
  case isTrue hT => rw [hT]; rfl
  case isFalse hT => exact h.ws k (by omega)

/-- The EXPAND steps from T to N − 1 complete the schedule and begin round 0 (R145, R202). -/
theorem run_expand {n : Nat} (hs : s.state = .expand) (hturns : s.turns = []) (h16 : 16 ≤ s.t.toNat)
    (hn : s.t.toNat + (n + 1) = rounds s.var) (h : ScheduledUpTo s.t.toNat s) :
    ∃ t, run (n + 1) s = .next t ∧ t.state = .round ∧ t.t = 0 ∧ ScheduledUpTo (rounds t.var) t ∧ SameBlock s t := by
  induction n generalizing s with
  | zero =>
    have hl : s.t.toNat = rounds s.var - 1 := by omega
    obtain ⟨t, he⟩ := exec_completes .stepExpand s
    have hsame : SameBlock s t := .stepExpand he
    refine ⟨t, ?_, ?_, ?_, ?_, hsame⟩
    · rw [run_succ_of_next ((step_of_expand hs hturns).trans he), run_zero]
    · rw [exec_stepExpand_state he, if_pos hl]
    · rw [exec_stepExpand_t he, if_pos hl]
    · rw [hsame.var, ← hn]
      exact h.stepExpand h16 (by omega) he
  | succ n ih =>
    have hl : s.t.toNat ≠ rounds s.var - 1 := by omega
    have hN := rounds_le s.var
    obtain ⟨t, he⟩ := exec_completes .stepExpand s
    have hsame : SameBlock s t := .stepExpand he
    have hstate : t.state = .expand := by rw [exec_stepExpand_state he, if_neg hl, hs]
    have hT : t.t.toNat = s.t.toNat + 1 := by
      rw [exec_stepExpand_t he, if_neg hl]
      exact BitVec.toNat_add_of_lt (show s.t.toNat + 1 < 2 ^ 7 by omega)
    have hsched : ScheduledUpTo t.t.toNat t := hT ▸ h.stepExpand h16 (by omega) he
    obtain ⟨u, hrun, hu, hzero, hfull, hkept⟩ :=
      ih hstate (hsame.turns.trans hturns) (by omega) (by rw [hsame.var, hT]; omega) hsched
    refine ⟨u, ?_, hu, hzero, hfull, hsame.trans hkept⟩
    rw [run_succ_of_next ((step_of_expand hs hturns).trans he), hrun]

/-- The steps from LOAD to round 0 of a stable block (R140). -/
theorem run_schedule (hs : s.state = .load) (hturns : s.turns = []) (hst : s.stale = []) :
    ∃ t, run (1 + (rounds s.var - 16)) s = .next t ∧ t.state = .round ∧ t.t = 0 ∧
      ScheduledUpTo (rounds t.var) t ∧ SameBlock s t := by
  have hN := rounds_ge s.var
  obtain ⟨t, he⟩ := exec_completes .stepLoad s
  have hsame : SameBlock s t := .stepLoad he
  have hsched : ScheduledUpTo 16 t := .stepLoad hst he
  obtain ⟨hstate, hT⟩ : t.state = .expand ∧ t.t.toNat = 16 := by
    rw [exec_stepLoad] at he
    cases he
    exact ⟨rfl, rfl⟩
  obtain ⟨u, hrun, hu, hzero, hfull, hkept⟩ := run_expand (n := rounds s.var - 17) hstate
    (hsame.turns.trans hturns) hT.ge (by rw [hsame.var]; omega) (hT ▸ hsched)
  refine ⟨u, ?_, hu, hzero, hfull, hsame.trans hkept⟩
  have hcount : 1 + (rounds s.var - 16) = rounds s.var - 17 + 1 + 1 := by omega
  rw [hcount, run_succ_of_next ((step_of_load hs hturns).trans he), hrun]

end

/-- Settles O51: the schedule that Ws ends with is that of the LOAD state, whose message, BLK and H are kept. -/
theorem expandStepsGiveSchedule : Obligations.ExpandStepsGiveSchedule := by
  intro s hs hturns hst
  obtain ⟨t, hrun, hstate, hzero, hsched, hsame⟩ := run_schedule hs hturns hst
  obtain ⟨ws, v, T, state, msgReads, fresh, rfl⟩ := hsame
  exact ⟨_, hrun, hstate, hzero, hsched.ws, hsched.v, rfl⟩

end Sys2Proof.Machine

/-! PROOFS. The statements of 43_compression.md. -/

namespace Sys2Proof.Machine

/-! ### Ch and Maj bit by bit (R161, R164) -/

theorem getLsbD_ch {w : Nat} (x y z : BitVec w) {i : Nat} (hi : i < w) :
    (ch x y z).getLsbD i = if x.getLsbD i then y.getLsbD i else z.getLsbD i := by
  rw [ch, BitVec.getLsbD_xor, BitVec.getLsbD_and, BitVec.getLsbD_and, BitVec.getLsbD_not, decide_eq_true hi]
  cases x.getLsbD i <;> simp

theorem getLsbD_maj {w : Nat} (x y z : BitVec w) (i : Nat) :
    (maj x y z).getLsbD i = decide (2 ≤ (x.getLsbD i).toNat + (y.getLsbD i).toNat + (z.getLsbD i).toNat) := by
  have majority (a b c : Bool) : (a && b ^^ a && c ^^ b && c) = decide (2 ≤ a.toNat + b.toNat + c.toNat) := by
    revert a b c
    decide
  rw [maj, BitVec.getLsbD_xor, BitVec.getLsbD_xor, BitVec.getLsbD_and, BitVec.getLsbD_and, BitVec.getLsbD_and,
    majority]

/-- Settles O45: x's bit selects in Ch, and Maj's three products are the majority on the eight triples of bits. -/
theorem chooseAndMajorityBits : Obligations.ChooseAndMajorityBits := fun _ x y z i hi =>
  ⟨getLsbD_ch x y z hi, getLsbD_maj x y z i⟩

/-! ### Runs with no turn listed (R265) -/

theorem step_of_round {s : State} (hs : s.state = .round) (ht : s.turns = []) : step s = exec .stepRound s := by
  rw [step_of_busy (by rw [State.busy, hs]; rfl) ht, engineStep_round hs]

theorem step_of_fold {s : State} (hs : s.state = .fold) (ht : s.turns = []) : step s = exec .stepFold s := by
  rw [step_of_busy (by rw [State.busy, hs]; rfl) ht, engineStep_fold hs]

/-- A run goes on from where a shorter run ended. -/
theorem run_add_of_next {m : Nat} {s t : State} (h : run m s = .next t) (n : Nat) : run (m + n) s = run n t := by
  induction m generalizing s with
  | zero =>
    cases h
    rw [Nat.zero_add]
  | succ m ih =>
    obtain ⟨u, hstep⟩ : ∃ u, step s = .next u := turnStep_completes ..
    rw [run_succ_of_next hstep] at h
    rw [Nat.add_right_comm, run_succ_of_next hstep, ih h]

/-! ### The words that ROUND and FOLD compute (R160, R166 to R168) -/

/-- The chaining value in H as W-bit words (R22), as `workWords` is for V. -/
def chainWords (s : State) : Vector (BitVec (width s.var)) 8 := Vector.ofFn fun k => lowWord s.var s.h[k]

section
variable {s t : State} {n : Nat}

theorem workWords_of_zextWords {x : Vector (BitVec (width s.var)) 8} (h : s.v = zextWords x) : workWords s = x := by
  ext k hk
  simp [workWords, h]

/-- Where V holds the working variables after T rounds and Ws the schedule, ROUND computes round T. -/
theorem roundResult_eq_roundsDone {sched : List (BitVec (width s.var))} {x : Vector (BitVec (width s.var)) 8}
    (hN : s.t.toNat < rounds s.var)
    (hws : ∀ k : Fin 80, k.val < rounds s.var → s.ws[k] = zext64 (sched.getD k.val 0))
    (hv : s.v = zextWords (roundsDone s.var sched x s.t.toNat)) :
    roundResult s = roundsDone s.var sched x (s.t.toNat + 1) := by
  have hentry (h80 : s.t.toNat < 80) : schedEntry s s.t.toNat h80 = sched.getD s.t.toNat 0 := by
    rw [schedEntry, show s.ws[s.t.toNat] = _ from hws ⟨_, h80⟩ hN, lowWord_zext64]
  rw [roundsDone_succ hN, roundResult, dif_pos hN, workWords_of_zextWords hv, hentry]

/-- Where V holds the working variables after all rounds, FOLD computes `compress`. -/
theorem fold_eq_compress {sched : List (BitVec (width s.var))}
    (hv : s.v = zextWords (roundsDone s.var sched (chainWords s) (rounds s.var))) (k : Fin 8) :
    lowWord s.var s.h[k] + lowWord s.var s.v[k] = (compress s.var (chainWords s) sched)[k] := by
  simp [compress, addWords, hv, chainWords]

/-! ### The rounds of a block (R165, R203) -/

/-- `n` rounds of block BLK of the message in memory are done: Ws still holds the block's schedule, V the working
variables, and after the last round FOLD is next. -/
structure AfterRounds (n : Nat) (s : State) : Prop where
  ws : ∀ k : Fin 80, k.val < rounds s.var →
    s.ws[k] = zext64 ((blockSchedule s.var s.len (Memory.read s.mem) s.blk.toNat).getD k.val 0)
  v : s.v = zextWords
    (roundsDone s.var (blockSchedule s.var s.len (Memory.read s.mem) s.blk.toNat) (chainWords s) n)
  t : s.t = if n = rounds s.var then 0 else BitVec.ofNat 7 n
  state : s.state = if n = rounds s.var then .fold else .round

/-- The schedule complete, LOAD's copy of H in V is where the rounds begin. -/
theorem ScheduledUpTo.afterRounds_zero (h : ScheduledUpTo (rounds s.var) s) (hs : s.state = .round) (hT : s.t = 0) :
    AfterRounds 0 s := by
  have hN : 0 ≠ rounds s.var := by have := rounds_ge s.var; omega
  refine ⟨h.ws, ?_, ?_, ?_⟩
  · ext k hk
    rw [show s.v[k] = _ from h.v ⟨k, hk⟩]
    simp [roundsDone, chainWords]
  · rw [if_neg hN, hT]
    rfl
  · rw [if_neg hN, hs]

theorem SameBlock.stepRound (he : exec .stepRound s = .next t) : SameBlock s t := by
  rw [exec_stepRound] at he
  cases he
  exact .trans ⟨s.ws, _, s.t, s.state, s.msgReads, _, rfl⟩ (.advance _ _)

/-- T and STATE move on to round T + 1, or to FOLD after round N - 1. -/
theorem AfterRounds.advance
    (hws : ∀ k : Fin 80, k.val < rounds s.var →
      s.ws[k] = zext64 ((blockSchedule s.var s.len (Memory.read s.mem) s.blk.toNat).getD k.val 0))
    (hv : s.v = zextWords (roundsDone s.var (blockSchedule s.var s.len (Memory.read s.mem) s.blk.toNat)
      (chainWords s) (n + 1)))
    (hT : s.t.toNat = n) (hs : s.state = .round) (hn : n < rounds s.var) : AfterRounds (n + 1) (s.advance .fold) := by
  subst hT
  by_cases hl : s.t.toNat = rounds s.var - 1
  · have hend : s.t.toNat + 1 = rounds s.var := by omega
    rw [State.advance_last hl]
    exact ⟨hws, hv, (if_pos hend).symm, (if_pos hend).symm⟩
  · have hmore : s.t.toNat + 1 ≠ rounds s.var := by omega
    have hsucc : s.t + 1 = BitVec.ofNat 7 (s.t.toNat + 1) := by
      rw [BitVec.ofNat_add, BitVec.ofNat_toNat, BitVec.setWidth_eq]
      rfl
    rw [State.advance_more hl]
    exact ⟨hws, hv, hsucc.trans (if_neg hmore).symm, hs.trans (if_neg hmore).symm⟩

theorem AfterRounds.stepRound (h : AfterRounds n s) (hn : n < rounds s.var) (he : exec .stepRound s = .next t) :
    AfterRounds (n + 1) t := by
  obtain ⟨hws, hv, hT, hs⟩ := h
  rw [if_neg hn.ne] at hT hs
  have hTn : s.t.toNat = n := by
    have hN := rounds_le s.var
    rw [hT, BitVec.toNat_ofNat, Nat.mod_eq_of_lt (by omega)]
  subst hTn
  rw [exec_stepRound, roundResult_eq_roundsDone hn hws hv] at he
  cases he
  exact .advance hws rfl rfl hs hn

/-- The ROUND steps from round 0 on (R167, R203). -/
theorem run_rounds (hturns : s.turns = []) (h : AfterRounds 0 s) (hn : n ≤ rounds s.var) :
    ∃ t, run n s = .next t ∧ AfterRounds n t ∧ SameBlock s t := by
  induction n with
  | zero => exact ⟨s, run_zero s, h, s.ws, s.v, s.t, s.state, s.msgReads, s.fresh, rfl⟩
  | succ n ih =>
    obtain ⟨t, hrun, ht, hsame⟩ := ih (by omega)
    have hlt : n < rounds t.var := hsame.var ▸ hn
    obtain ⟨u, he⟩ := exec_completes .stepRound t
    have hstep : step t = .next u :=
      (step_of_round (ht.state.trans (if_neg hlt.ne)) (hsame.turns.trans hturns)).trans he
    refine ⟨u, ?_, ht.stepRound hlt he, hsame.trans (.stepRound he)⟩
    rw [run_add_of_next hrun, run_succ_of_next hstep, run_zero]

/-- The steps of a stable block from LOAD to FOLD (R160). -/
theorem run_block_to_fold (hs : s.state = .load) (hturns : s.turns = []) (hst : s.stale = []) :
    ∃ t, run (1 + (rounds s.var - 16) + rounds s.var) s = .next t ∧ AfterRounds (rounds t.var) t ∧ SameBlock s t := by
  obtain ⟨t, hrun, hstate, hzero, hsched, hsame⟩ := run_schedule hs hturns hst
  obtain ⟨u, hrun', hu, hsame'⟩ := run_rounds (hsame.turns.trans hturns) (hsched.afterRounds_zero hstate hzero) le_rfl
  refine ⟨u, ?_, hsame'.var ▸ hu, hsame.trans hsame'⟩
  rw [run_add_of_next hrun, ← hsame.var, hrun']

end

/-- Settles O52: the rounds leave in V what FOLD adds to H, and FOLD's H, BLK and STATE are those of the statement. -/
theorem blockStepsCompress : Obligations.BlockStepsCompress := by
  intro s hs hturns hst
  obtain ⟨t, hrun, hrounds, hsame⟩ := run_block_to_fold hs hturns hst
  have hfold : step t = exec .stepFold t :=
    step_of_fold (hrounds.state.trans (if_pos rfl)) (hsame.turns.trans hturns)
  have hcount : blockSteps s.var = 1 + (rounds s.var - 16) + rounds s.var + 1 := by rw [blockSteps]; omega
  have hall := run_add_of_next hrun 1
  rw [← hcount, run_succ_of_next (hfold.trans (exec_stepFold t)), run_zero] at hall
  have hcompress := fold_eq_compress hrounds.v
  have hT := hrounds.t.trans (if_pos rfl)
  obtain ⟨ws, v, T, state, msgReads, fresh, rfl⟩ := hsame
  refine ⟨_, hall, fun k => ?_, rfl, rfl, hT⟩
  rw [Fin.getElem_fin, Vector.getElem_ofFn]
  exact congrArg zext64 (hcompress k)

end Sys2Proof.Machine

/-! PROOFS. The statements of 44_driver.md. -/

namespace Sys2Proof.Machine

/-! ### Host transactions (R34, R180 to R182, R187) -/

/-- Settles O10: the indices of each bank are checked one by one, since the bank is in their bits. -/
theorem readReturnsRegisterValue : Obligations.ReadReturnsRegisterValue := by
  refine ⟨fun s ridx => exec_rd ridx s, fun ridx d => decodeHost_rd ridx d, fun s => ?values⟩
  case values =>
    refine ⟨rfl, rfl, rfl, rfl, rfl, fun k => ?reserved5, fun k => ?digest, fun k => ?working, fun k => ?reserved24⟩
    all_goals fin_cases k <;> rfl

theorem busy_of_mem {s : State} (hs : s.state ∈ [.pad, .load, .expand, .round, .fold]) : s.busy = true := by
  rw [busy_eq_decide, decide_eq_true hs]

theorem not_busy_of_mem {s : State} (hs : s.state ∈ [.idle, .done, .fault]) : s.busy = false := by
  simpa [busy_eq_false_iff] using hs

/-- Settles O12: the write tests nothing but busy. -/
theorem msgLenWriteUnlessBusy : Obligations.MsgLenWriteUnlessBusy := by
  refine fun s d => ⟨rfl, fun hs => ?_, fun hs => ?_⟩
  · rw [exec_wrMsgLen, if_pos (busy_of_mem hs), State.signalErrBusy]
  · rw [exec_wrMsgLen, not_busy_of_mem hs, if_neg Bool.false_ne_true]

/-- Settles O13: by the rows of the headers; those of reads, CMD and MSG_LEN are not among the headers named. -/
theorem readOnlyWritesIgnored : Obligations.ReadOnlyWritesIgnored := by
  refine fun s d => ⟨rfl, rfl, fun l => rfl, fun k => rfl, fun l => rfl, fun header hh => ?_⟩
  rw [decode]
  cases header using headerCases with
  | rd ridx => exact absurd hh (by revert ridx; decide)
  | wrCmd => exact absurd hh (by decide)
  | wrMsgLen => exact absurd hh (by decide)
  | wrStatus => rfl
  | wrNblk => rfl
  | wrBlkcntRsv low => rw [decodeHost_wrBlkcntRsv, exec_wrBlkcntRsv]
  | wrDigest k => rw [decodeHost_wrDigest, exec_wrDigest]
  | wrWvRsv low => rw [decodeHost_wrWvRsv, exec_wrWvRsv]

/-! ### Command words (R180, R183 to R186) -/

section
variable (s : State)

theorem runCommand_of_not_legal {c : Word} (h : cmdLegal c = false) : s.runCommand c = s.signalErrCmd := by
  rw [State.runCommand, h, Bool.not_false, if_pos rfl]

/-- A write to CMD and the command word by itself run the same step (R90, R180). -/
theorem exec_decodeCommand (c : Word) : exec (decodeCommand c) s = .next (s.runCommand c) := by
  cases c using commandCases with
  | nop => rfl
  | hash256 => rfl
  | hash512 => rfl
  | abort => rfl
  | illegal c hl => rw [decodeCommand_of_not_legal hl, exec_illegal, runCommand_of_not_legal s hl]

end

/-- Settles O14: after the legality test `runCommand` goes by OP, and V selects between the two HASH words. -/
theorem commandWriteRunsOperation : Obligations.CommandWriteRunsOperation := by
  intro s c
  refine ⟨rfl, fun hl => ?illegal, fun hl hop => ?nop, fun hl hop => ?hash, fun hl hop => ?abort, ⟨_, exec_wrCmd c s⟩,
    ?sameStep⟩
  case illegal => rw [exec_wrCmd, runCommand_of_not_legal s hl, State.signalErrCmd]
  case nop => simp [State.runCommand, hl, hop]
  case hash =>
    have hrun : s.runCommand c = s.startHash (variantOf (c.getLsbD 4)) := by simp [State.runCommand, hl, hop, cmdV]
    rw [exec_wrCmd, hrun]
    cases c.getLsbD 4 <;> rfl
  case abort => simp [State.runCommand, hl, hop]
  case sameStep => rw [exec_wrCmd, decode, exec_decodeCommand]

/-- Settles O15: NOP's arm answers its state. -/
theorem nopChangesNothing : Obligations.NopChangesNothing := ⟨rfl, exec_nop⟩

section
variable {s : State} (v : Variant)

theorem State.startHash_rejected (hs : s.state ∈ [.pad, .load, .expand, .round, .fold, .fault]) :
    s.startHash v = s.signalErrBusy := by
  have hrej : s.busy = true ∨ s.state = .fault := by
    rw [busy_eq_decide]
    simpa [or_assoc] using hs
  rcases s.startHash_cases v with ⟨-, hc⟩ | ⟨hb, hf, -⟩ | ⟨hb, hf, -⟩
  · exact hc
  · simp [hb, hf] at hrej
  · simp [hb, hf] at hrej

/-- The two states in which a HASH is accepted (R184). -/
theorem not_busy_and_not_fault (hs : s.state ∈ [.idle, .done]) : ¬(s.busy = true ∨ s.state = .fault) := by
  have hb : s.busy = false := not_busy_of_mem (by simp at hs ⊢; tauto)
  rintro (h | h)
  · simp [hb] at h
  · simp [h] at hs

theorem State.startHash_legacyEmpty (hs : s.state ∈ [.idle, .done])
    (he : s.msgLen = 0 ∧ s.cfg.emptyPolicy = .legacy) :
    s.startHash v = { s with
      var := v, errCmd := false, errBusy := false, t := 0, blk := 0, nb := 0
      h := Vector.replicate 8 0, noDigest := true, state := .done, stale := [], msgReads := [] } := by
  rcases s.startHash_cases v with ⟨h, -⟩ | ⟨-, -, -, -, hc⟩ | ⟨-, -, hne, -⟩
  · exact absurd h (not_busy_and_not_fault hs)
  · exact hc
  · exact absurd he hne

theorem State.startHash_accepted (hs : s.state ∈ [.idle, .done])
    (he : ¬(s.msgLen = 0 ∧ s.cfg.emptyPolicy = .legacy)) :
    s.startHash v = { s with
      var := v, errCmd := false, errBusy := false, t := 0, blk := 0, nb := 0
      noDigest := false, state := .pad, stale := [], msgReads := [] } := by
  rcases s.startHash_cases v with ⟨h, -⟩ | ⟨-, -, hl, hp, -⟩ | ⟨-, -, -, hc⟩
  · exact absurd h (not_busy_and_not_fault hs)
  · exact absurd ⟨hl, hp⟩ he
  · exact hc

end

/-- Settles O16: both instructions run `startHash` of their variant, which has three outcomes. -/
theorem hashStartsOrIsRejected : Obligations.HashStartsOrIsRejected := by
  refine ⟨rfl, rfl, fun s i v hi => ?_⟩
  have hexec : exec i s = .next (s.startHash v) := by
    rcases hi with ⟨rfl, rfl⟩ | ⟨rfl, rfl⟩ <;> rfl
  refine ⟨fun hs => ?_, fun hs he => ?_, fun hs he => ?_⟩
  · rw [hexec, State.startHash_rejected v hs, State.signalErrBusy]
  · rw [hexec, State.startHash_legacyEmpty v hs he]
  · rw [hexec, State.startHash_accepted v hs he]

/-- Settles O17: ABORT's arm is `abortHash` in every STATE. -/
theorem abortReturnsToIdle : Obligations.AbortReturnsToIdle := ⟨rfl, exec_abort⟩

/-- Settles O18: an illegal word stands in no other row. -/
theorem illegalCommandSetsErrCmd : Obligations.IllegalCommandSetsErrCmd := fun s c hl =>
  ⟨decodeCommand_of_not_legal hl, exec_illegal c s⟩

/-- Settles O19: by the three quiescent states. -/
theorem quiescentEngineStays : Obligations.QuiescentEngineStays := by
  refine fun s => ⟨exec_noStepIdle s, exec_noStepDone s, exec_noStepFault s, fun hs => ?_⟩
  simp only [List.mem_cons, List.not_mem_nil, or_false] at hs
  rcases hs with hs | hs | hs
  · rw [engineStep_idle hs, exec_noStepIdle]
  · rw [engineStep_done hs, exec_noStepDone]
  · rw [engineStep_fault hs, exec_noStepFault]


/-! ### PAD (R200) -/

/-- Settles O20: the check is one of a multiple, so `padWith` always goes on to LOAD. -/
theorem padStepEffect : Obligations.PadStepEffect := by
  refine ⟨rfl, fun v nb => ?multiple, fun s nb => ?body, fun s => ⟨_, exec_stepPad s, ?blocks, fun k => ?iv, rfl, rfl⟩⟩
  case multiple => simpa [blockAligned] using blockAligned_eq_true v nb
  case body => simp only [padWith, blockAligned, beq_iff_eq, State.enterFault, ne_eq, ite_not]
  case blocks => exact Nat.mod_eq_of_lt (numBlocks_lt s.var (len_lt s))
  case iv => simp

/-! ### LOAD (R63, R201) -/

/-- n bytes, read big-endian, are a number below 256^n. -/
theorem sum_bigEndian_lt (d : Nat → Byte) (n : Nat) :
    ((List.range n).map fun b => (d b).toNat * 256 ^ (n - 1 - b)).sum < 256 ^ n := by
  induction n with
  | zero => simp
  | succ n ih =>
    have hshift : ∀ b ∈ List.range n, (d b).toNat * 256 ^ (n + 1 - 1 - b) = (d b).toNat * 256 ^ (n - 1 - b) * 256 := by
      intro b hb
      have hb := List.mem_range.mp hb
      rw [show n + 1 - 1 - b = n - 1 - b + 1 by omega, Nat.pow_succ, Nat.mul_assoc]
    rw [List.range_succ, List.map_append, List.sum_append, List.map_congr_left hshift, List.sum_map_mul_right]
    have hd := (d n).isLt
    simp only [List.map_cons, List.map_nil, List.sum_cons, List.sum_nil, Nat.add_sub_cancel, Nat.sub_self, Nat.pow_zero,
      Nat.pow_succ]
    omega

/-- Wrapping sums of words are sums of numbers modulo 2^W (R103). -/
theorem toNat_foldl_add {w : Nat} (f : Nat → BitVec w) (l : List Nat) (x : BitVec w) :
    (l.foldl (fun acc b => acc + f b) x).toNat = (x.toNat + (l.map fun b => (f b).toNat).sum) % 2 ^ w := by
  induction l generalizing x with
  | nil => simp [Nat.mod_eq_of_lt x.isLt]
  | cons b l ih => simp [ih, BitVec.toNat_add, Nat.add_assoc]

/-- A byte shifted to its place in a word keeps its value (R63). -/
theorem toNat_byte_shiftLeft (v : Variant) (x : Byte) {i : Nat} (hi : i < wordBytes v) :
    (x.setWidth (width v) <<< (8 * i)).toNat = x.toNat * 256 ^ i := by
  have hx := x.isLt
  have h8 : 2 ^ (8 * i) = 256 ^ i := Nat.pow_mul 2 8 i
  have hfits : x.toNat * 256 ^ i < 2 ^ width v := by
    rw [width_eq_mul_wordBytes, Nat.pow_mul]
    calc x.toNat * 256 ^ i < 256 * 256 ^ i := Nat.mul_lt_mul_of_pos_right hx (by positivity)
      _ = 256 ^ (i + 1) := by rw [Nat.pow_succ, Nat.mul_comm]
      _ ≤ 256 ^ wordBytes v := Nat.pow_le_pow_right (by decide) hi
  have hw : x.toNat < 2 ^ width v := by cases v <;> simp [width] <;> omega
  rw [BitVec.toNat_shiftLeft, BitVec.toNat_setWidth, Nat.mod_eq_of_lt hw, Nat.shiftLeft_eq, h8, Nat.mod_eq_of_lt hfits]

/-- A native word is, as a number, the big-endian sum of its bytes (R63). -/
theorem toNat_nativeWord (v : Variant) (pb : Nat → Byte) (p k : Nat) : (nativeWord v pb p k).toNat =
    ((List.range (wordBytes v)).map fun b =>
      (pb (p + wordBytes v * k + b)).toNat * 256 ^ (wordBytes v - 1 - b)).sum := by
  have hbytes : ∀ b ∈ List.range (wordBytes v),
      ((pb (p + wordBytes v * k + b)).setWidth (width v) <<< (8 * (wordBytes v - 1 - b))).toNat =
        (pb (p + wordBytes v * k + b)).toNat * 256 ^ (wordBytes v - 1 - b) :=
    fun b _ => toNat_byte_shiftLeft v _ (by have := wordBytes_pos v; omega)
  have hlt := sum_bigEndian_lt (fun b => pb (p + wordBytes v * k + b)) (wordBytes v)
  rw [nativeWord, toNat_foldl_add, List.map_congr_left hbytes, BitVec.ofNat_eq_ofNat, BitVec.toNat_zero, Nat.zero_add,
    Nat.mod_eq_of_lt]
  rwa [width_eq_mul_wordBytes, Nat.pow_mul]

/-- Zero-extending a word keeps its value (R9). -/
theorem toNat_zext64 {v : Variant} (x : BitVec (width v)) : (zext64 x).toNat = x.toNat :=
  BitVec.toNat_setWidth_of_le (by cases v <;> decide)

/-- A register that is zero above the W bits is the zero extension of its word (R22, log entry 9). -/
theorem zext64_lowWord {v : Variant} {x : Word} (h : v = .v64 ∨ UpperHalfZero x) : zext64 (lowWord v x) = x := by
  have hx : x.toNat < 2 ^ width v := by
    cases v with
    | v32 => exact h.resolve_left (by simp)
    | v64 => exact x.isLt
  apply BitVec.eq_of_toNat_eq
  rw [toNat_zext64, lowWord, BitVec.toNat_setWidth, Nat.mod_eq_of_lt hx]

/-- Settles O21: a loaded word is the sum of R63 over the bytes read, and those are the bytes held in a stable hash. -/
theorem loadStepEffect : Obligations.LoadStepEffect := by
  refine ⟨rfl, toNat_nativeWord, fun s => ⟨_, exec_stepLoad s, ⟨fun k hk => ?ws, fun hst k hk => ?stable⟩,
    fun k hk => ?rest, fun k => ?v, fun hv => ?copy, rfl, rfl, rfl, rfl⟩⟩
  case ws =>
    simp [hk, loadWord, toNat_zext64, toNat_nativeWord, machinePadByte, State.len]
  case stable =>
    simp [hk, loadWord, toNat_zext64, toNat_nativeWord, machinePadByte_of_stale_nil hst, State.len]
  case rest => simp [Nat.not_lt.mpr hk]
  case v => simp
  case copy =>
    refine Vector.ext fun k hk => ?_
    rw [Vector.getElem_ofFn]
    exact zext64_lowWord (hv.imp_right fun hk' => hk' ⟨k, hk⟩)

/-! ### EXPAND and ROUND (R202, R203) -/

/-- T does not wrap: it has 7 bits and N is at most 80. -/
theorem toNat_t_succ {s : State} (h : s.t.toNat < rounds s.var) : (s.t + 1).toNat = s.t.toNat + 1 := by
  have hN := rounds_le s.var
  exact BitVec.toNat_add_of_lt (show s.t.toNat + 1 < 2 ^ 7 by omega)

theorem exec_stepRound_state {s t : State} (he : exec .stepRound s = .next t) :
    t.state = if s.t.toNat = rounds s.var - 1 then .fold else s.state := by
  rw [exec_stepRound] at he
  cases he
  exact State.advance_state _ _

theorem exec_stepRound_t {s t : State} (he : exec .stepRound s = .next t) :
    t.t = if s.t.toNat = rounds s.var - 1 then 0 else s.t + 1 := by
  rw [exec_stepRound] at he
  cases he
  exact State.advance_t _ _

section
variable {s t : State}

/-- The entries that EXPAND and ROUND read, for an index in range. -/
theorem schedEntry_eq_getD {i : Nat} (hi : i < 80) : schedEntry s i hi = lowWord s.var (s.ws.getD i 0) := by
  simp [schedEntry, Vector.getD, hi]

/-- EXPAND within the range of T writes the schedule entry T and draws no free value. -/
theorem exec_stepExpand_inRange (h16 : 16 ≤ s.t.toNat) (hN : s.t.toNat < rounds s.var) :
    exec .stepExpand s = .next (State.advance { s with
      ws := s.ws.setIfInBounds s.t.toNat (zext64 (schedWord s.var
        (lowWord s.var (s.ws.getD (s.t.toNat - 2) 0)) (lowWord s.var (s.ws.getD (s.t.toNat - 7) 0))
        (lowWord s.var (s.ws.getD (s.t.toNat - 15) 0)) (lowWord s.var (s.ws.getD (s.t.toNat - 16) 0)))) } .round) := by
  have hok : s.expandIndexOk = true := by simp [State.expandIndexOk, h16, hN]
  rw [exec_stepExpand, if_pos hok, expandWord, dif_pos ⟨h16, hN⟩]
  simp only [schedEntry_eq_getD]

/-- ROUND within the range of T applies the round function with K[T] and Ws[T] and draws no free value. -/
theorem exec_stepRound_inRange (hN : s.t.toNat < rounds s.var) :
    exec .stepRound s = .next (State.advance { s with
      v := zextWords (roundWords s.var (workWords s) (kConst s.var s.t.toNat hN)
        (lowWord s.var (s.ws.getD s.t.toNat 0))) } .fold) := by
  have hok : s.roundIndexOk = true := by simp [State.roundIndexOk, hN]
  rw [exec_stepRound, if_pos hok, roundResult, dif_pos hN, schedEntry_eq_getD]
  rfl

end

/-- Settles O22: the step writes Ws[T] and goes on to the next T or to ROUND. -/
theorem expandStepEffect : Obligations.ExpandStepEffect := by
  refine ⟨rfl, fun s h16 hle => ?_⟩
  have hN : s.t.toNat < rounds s.var := by have := rounds_ge s.var; omega
  have he := exec_stepExpand_inRange h16 hN
  refine ⟨_, he, fun k => ?ws, fun hl => ⟨?zero, ?round⟩, fun hl => ⟨?next, ?stays⟩, ?frame⟩
  case zero => rw [exec_stepExpand_t he, if_pos hl]
  case round => rw [exec_stepExpand_state he, if_pos hl]
  case next => rw [exec_stepExpand_t he, if_neg hl, toNat_t_succ hN]
  case stays => rw [exec_stepExpand_state he, if_neg hl]
  case ws =>
    rw [State.advance_ws, Fin.getElem_fin, Vector.getElem_setIfInBounds]
    simp only [schedWord, eq_comm]
    rfl
  case frame =>
    unfold State.advance
    split <;> rfl

/-- Settles O23: the step writes V and goes on to the next T or to FOLD. -/
theorem roundStepEffect : Obligations.RoundStepEffect := by
  refine ⟨rfl, fun s hN => ?_⟩
  have he := exec_stepRound_inRange hN
  refine ⟨_, he, ?v, fun hl => ⟨?zero, ?fold⟩, fun hl => ⟨?next, ?stays⟩, ?frame⟩
  case zero => rw [exec_stepRound_t he, if_pos hl]
  case fold => rw [exec_stepRound_state he, if_pos hl]
  case next => rw [exec_stepRound_t he, if_neg hl, toNat_t_succ hN]
  case stays => rw [exec_stepRound_state he, if_neg hl]
  case v =>
    rw [State.advance_v]
    refine Vector.ext fun k hk => ?_
    interval_cases k <;> simp [roundWords, workWords]
  case frame =>
    unfold State.advance
    split <;> rfl

/-- Settles O25: out of range T is not N - 1, so T grows; EXPAND's write at index T leaves the other entries. -/
theorem outOfRangeIndexStillSteps : Obligations.OutOfRangeIndexStillSteps := by
  intro s
  have hN := rounds_ge s.var
  refine ⟨fun hout => ?expand, fun hout => ?round⟩
  case expand =>
    have hl : s.t.toNat ≠ rounds s.var - 1 := by omega
    refine ⟨_, exec_stepExpand s, ?_⟩
    rw [State.advance_more (by exact hl)]
    refine ⟨fun k hk => ?_, rfl, rfl, rfl⟩
    simp [Ne.symm hk]
  case round =>
    have hl : s.t.toNat ≠ rounds s.var - 1 := by omega
    refine ⟨_, exec_stepRound s, ?_⟩
    rw [State.advance_more (by exact hl)]
    exact ⟨rfl, rfl, rfl⟩

/-! ### FOLD (R204) -/

/-- Settles O24: BLK indexes a block there, so one more is left. -/
theorem foldStepEffect : Obligations.FoldStepEffect := by
  refine ⟨rfl, fun s hseq hs => ?left, fun s => ⟨_, exec_stepFold s, fun k => ?h, rfl, fun hl => ?last, fun hl => ?more,
    rfl⟩⟩
  case left => exact ((blocksInRange_iff_of_block (by simp [hs])).mp hseq.blocksInRange).2
  case h => simp
  case last => exact if_pos hl
  case more => exact if_neg hl


/-! ### What a step can do to a hash (R4, R206) -/

/-- `t` is `s` but for what the agents change beside the hash: the two lists, the port's output, the counter of free
values, the flags of rejected writes and the reset input. -/
def SameHash (s t : State) : Prop := ∃ p l r n ec eb rh,
  t = { s with program := p, turns := l, rdata := r, fresh := n, errCmd := ec, errBusy := eb, resetHeld := rh }

section
variable {s t : State}

theorem SameHash.state (h : SameHash s t) : t.state = s.state := by
  obtain ⟨_, _, _, _, _, _, _, rfl⟩ := h
  rfl

theorem SameHash.msgLen (h : SameHash s t) : t.msgLen = s.msgLen := by
  obtain ⟨_, _, _, _, _, _, _, rfl⟩ := h
  rfl

theorem SameHash.cfg (h : SameHash s t) : t.cfg = s.cfg := by
  obtain ⟨_, _, _, _, _, _, _, rfl⟩ := h
  rfl

theorem SameHash.signalErrBusy (h : SameHash s t) : SameHash s t.signalErrBusy := by
  obtain ⟨_, _, _, _, _, _, _, rfl⟩ := h
  exact ⟨_, _, _, _, _, _, _, rfl⟩

theorem SameHash.signalErrCmd (h : SameHash s t) : SameHash s t.signalErrCmd := by
  obtain ⟨_, _, _, _, _, _, _, rfl⟩ := h
  exact ⟨_, _, _, _, _, _, _, rfl⟩

/-- A HASH is rejected, which leaves the hash alone, or is accepted in IDLE or DONE (R184). -/
theorem SameHash.startHash (h : SameHash s t) (v : Variant) :
    SameHash s (t.startHash v) ∨ s.state ∈ [.idle, .done] := by
  by_cases hs : s.state ∈ [.idle, .done]
  · exact .inr hs
  · have hrej : t.state ∈ [.pad, .load, .expand, .round, .fold, .fault] := by
      rw [h.state]
      cases hst : s.state <;> simp_all
    rw [State.startHash_rejected v hrej]
    exact .inl h.signalErrBusy

/-- Everything the command word `w`, next in the host's program, can do: leave the hash alone, begin one or abort it. -/
theorem SameHash.runCommand (h : SameHash s t) {w : Word} (hw : takesCommand s w) :
    SameHash s (t.runCommand w) ∨
    ((∃ v, takesHash s v) ∧ s.state ∈ [.idle, .done] ∧ ∃ v, t.runCommand w = t.startHash v) ∨
    (takesCommand s 0x2 ∧ t.runCommand w = t.abortHash) := by
  cases w using commandCases with
  | nop => exact .inl h
  | hash256 => exact (h.startHash .v32).imp_right fun hs => .inl ⟨⟨.v32, hw⟩, hs, .v32, rfl⟩
  | hash512 => exact (h.startHash .v64).imp_right fun hs => .inl ⟨⟨.v64, hw⟩, hs, .v64, rfl⟩
  | abort => exact .inr (.inr ⟨hw, rfl⟩)
  | illegal c hl =>
    rw [runCommand_of_not_legal t hl]
    exact .inl h.signalErrCmd

/-- Everything a step can do to a hash: the engine's step, or nothing, or one of the events that begin a hash, end it
or change its message. -/
theorem step_cases_by_event (h : step s = .next t) :
    (nextTurn s = .engine ∧ engineStep s.popTurn = .next t) ∨
    (nextTurn s ≠ .engine ∧ (SameHash s t ∨
      (s.busy = false ∧ ∃ d u, SameHash s u ∧ t = { u with msgLen := d }) ∨
      ((∃ v, takesHash s v) ∧ s.state ∈ [.idle, .done] ∧ ∃ v u, SameHash s u ∧ t = u.startHash v) ∨
      (takesCommand s 0x2 ∧ ∃ u, SameHash s u ∧ t = u.abortHash) ∨
      (∃ a b, nextTurn s = .platformWrite a b ∧ t = s.popTurn.platformWrite a b) ∨
      (nextTurn s = .resetOn ∧ t = s.popTurn.assertReset))) := by
  rcases step_cases h with h | ⟨ht, h⟩ | ⟨a, b, ht, h⟩ | ⟨ht, h⟩ | ⟨ht, h⟩
  · exact .inl h
  · refine .inr ⟨by simp [ht], ?_⟩
    have host (p : List HostOp) : SameHash s { s.popTurn with program := p } := ⟨_, _, _, _, _, _, _, rfl⟩
    rcases h with ⟨p, r, n, rfl⟩ | ⟨p, -, ⟨-, rfl⟩ | ⟨hb, d, rfl⟩ | ⟨w, hw, rfl | rfl⟩⟩
    · exact .inl ⟨_, _, _, _, _, _, _, rfl⟩
    · exact .inl (host p).signalErrBusy
    · exact .inr (.inl ⟨hb, d, _, host p, rfl⟩)
    · rcases (host p).runCommand hw with h | ⟨hv, hs, v, h⟩ | ⟨ha, h⟩
      · exact .inl h
      · exact .inr (.inr (.inl ⟨hv, hs, v, _, host p, h⟩))
      · exact .inr (.inr (.inr (.inl ⟨ha, _, host p, h⟩)))
    · exact .inl (host p).signalErrCmd
  · exact .inr ⟨by simp [ht], .inr (.inr (.inr (.inr (.inl ⟨a, b, ht, h⟩))))⟩
  · exact .inr ⟨by simp [ht], .inr (.inr (.inr (.inr (.inr ⟨ht, h⟩))))⟩
  · exact .inr ⟨by simp [ht], .inl (h ▸ ⟨_, _, _, _, _, _, _, rfl⟩)⟩

end

/-! ### The changes of STATE (R206) -/

/-- The changes of STATE that an engine step makes. -/
theorem engineStep_transitions {s t : State} (hseq : SequencingInv s) (h : engineStep s = .next t)
    (hne : t.state ≠ s.state) :
    (s.state = .pad ∧ t.state = .load) ∨
    (s.state = .load ∧ t.state = .expand) ∨
    (s.state = .expand ∧ t.state = .round ∧ s.t.toNat = rounds s.var - 1) ∨
    (s.state = .round ∧ t.state = .fold ∧ s.t.toNat = rounds s.var - 1) ∨
    (s.state = .fold ∧ t.state = .load ∧ s.blk.toNat + 1 < s.nb.toNat) ∨
    (s.state = .fold ∧ t.state = .done ∧ s.blk.toNat + 1 = s.nb.toNat) := by
  rcases engineStep_cases h with ⟨-, rfl⟩ | ⟨hs, rfl⟩ | ⟨hs, he⟩ | ⟨hs, he⟩ | ⟨hs, he⟩ | ⟨hs, he⟩
  · exact absurd rfl hne
  · simp [hs]
  · rw [exec_stepLoad] at he
    cases he
    simp [hs]
  · have hst := exec_stepExpand_state he
    split at hst
    · simp_all
    · exact absurd hst hne
  · have hst := exec_stepRound_state he
    split at hst
    · simp_all
    · exact absurd hst hne
  · rw [exec_stepFold] at he
    cases he
    obtain ⟨-, hblk⟩ := (blocksInRange_iff_of_block (by simp [hs])).mp hseq.blocksInRange
    by_cases hl : s.blk.toNat + 1 = s.nb.toNat
    · simp [hs, hl]
    · have hlt : s.blk.toNat + 1 < s.nb.toNat := by omega
      simp [hs, hl, hlt]

/-- Settles O27: by the event of the step; a HASH accepted in DONE that ends at once leaves STATE as it is. -/
theorem stateTransitions : Obligations.StateTransitions := by
  intro s t hseq h hne legacyEmpty
  rcases step_cases_by_event h with ⟨ht, he⟩ | ⟨-, hsame | ⟨-, d, u, hsame, rfl⟩ | ⟨hv, hs, v, u, hsame, rfl⟩ |
    ⟨ha, u, -, rfl⟩ | ⟨a, b, -, rfl⟩ | ⟨ht, rfl⟩⟩
  · exact .inr (.inr (.inl ⟨ht, engineStep_transitions (s := s.popTurn) { hseq with } he hne⟩))
  · exact absurd hsame.state hne
  · exact absurd hsame.state hne
  · have hu : u.state ∈ [.idle, .done] := hsame.state ▸ hs
    have hempty : (u.msgLen = 0 ∧ u.cfg.emptyPolicy = .legacy) ↔ legacyEmpty := by rw [hsame.msgLen, hsame.cfg]
    by_cases he : legacyEmpty
    · rw [State.startHash_legacyEmpty v hu (hempty.mpr he)] at hne ⊢
      have hidle : s.state = .idle := by simpa [Ne.symm hne] using hs
      exact .inr (.inl ⟨hv, hidle, rfl, he⟩)
    · rw [State.startHash_accepted v hu (hempty.not.mpr he)]
      exact .inl ⟨hv, hs, rfl, he⟩
  · exact .inr (.inr (.inr ⟨rfl, .inl ha⟩))
  · exact absurd rfl hne
  · exact .inr (.inr (.inr ⟨rfl, .inr ht⟩))

/-! ### The engine steps a hash still needs (R207) -/

section
variable {s t : State}

theorem remainingSteps_of_pad (hs : s.state = .pad) :
    remainingSteps s = 1 + numBlocks s.var s.len * blockSteps s.var := by simp [remainingSteps, hs, hashSteps]

theorem remainingSteps_of_load (hs : s.state = .load) :
    remainingSteps s = (s.nb.toNat - s.blk.toNat) * blockSteps s.var := by simp [remainingSteps, hs]

theorem remainingSteps_of_expand (hs : s.state = .expand) : remainingSteps s =
    (s.nb.toNat - (s.blk.toNat + 1)) * blockSteps s.var + (rounds s.var - s.t.toNat) + rounds s.var + 1 := by
  simp [remainingSteps, hs]

theorem remainingSteps_of_round (hs : s.state = .round) : remainingSteps s =
    (s.nb.toNat - (s.blk.toNat + 1)) * blockSteps s.var + (rounds s.var - s.t.toNat) + 1 := by
  simp [remainingSteps, hs]

theorem remainingSteps_of_fold (hs : s.state = .fold) :
    remainingSteps s = (s.nb.toNat - (s.blk.toNat + 1)) * blockSteps s.var + 1 := by simp [remainingSteps, hs]

theorem remainingSteps_of_not_busy (hb : s.busy = false) : remainingSteps s = 0 := by
  rcases (busy_eq_false_iff s).mp hb with hs | hs | hs <;> simp [remainingSteps, hs]

/-- The steps of a block are counted together with those of the blocks after it. -/
theorem mul_blockSteps_succ {nb blk : Nat} (h : blk < nb) (v : Variant) :
    (nb - blk) * blockSteps v = (nb - (blk + 1)) * blockSteps v + blockSteps v := by
  rw [show nb - blk = nb - (blk + 1) + 1 by omega, Nat.succ_mul]

/-- What the count of steps rests on: the parts of the sequencing invariant (R27 to R29) that bound it, from PAD to
DONE. -/
structure StepCountInv (s : State) : Prop where
  begun : s.state ≠ .idle ∧ s.state ≠ .fault
  firstBlock : s.state = .pad → s.blk = 0
  blockLeft : s.state ∈ [.load, .expand, .round, .fold] → s.blk.toNat < s.nb.toNat
  roundLeft : s.state ∈ [.expand, .round] → s.t.toNat < rounds s.var

theorem SequencingInv.stepCountInv (h : SequencingInv s) (hb : s.busy = true) : StepCountInv s where
  begun := by constructor <;> intro hs <;> simp [State.busy, hs, FsmState.busy] at hb
  firstBlock hs := ((blocksInRange_iff_of_pad hs).mp h.blocksInRange).1
  blockLeft hs := ((blocksInRange_iff_of_block hs).mp h.blocksInRange).2
  roundLeft hs := by
    simp only [List.mem_cons, List.not_mem_nil, or_false] at hs
    rcases hs with hs | hs
    · exact ((tInRange_iff_of_expand hs).mp h.tInRange).2
    · exact (tInRange_iff_of_round hs).mp h.tInRange

theorem StepCountInv.of_block (hs : t.state ∈ [.load, .expand, .round, .fold]) (hb : t.blk.toNat < t.nb.toNat)
    (ht : t.state ∈ [.expand, .round] → t.t.toNat < rounds t.var) : StepCountInv t where
  begun := by constructor <;> intro h <;> simp [h] at hs
  firstBlock h := by simp [h] at hs
  blockLeft _ := hb
  roundLeft := ht

/-- A hash that is under way needs at least one step more. -/
theorem StepCountInv.remainingSteps_pos (h : StepCountInv s) (hb : s.busy = true) : 0 < remainingSteps s := by
  cases hs : s.state with
  | pad => rw [remainingSteps_of_pad hs]; omega
  | load =>
    rw [remainingSteps_of_load hs, mul_blockSteps_succ (h.blockLeft (by simp [hs])), blockSteps]
    omega
  | expand => rw [remainingSteps_of_expand hs]; omega
  | round => rw [remainingSteps_of_round hs]; omega
  | fold => rw [remainingSteps_of_fold hs]; omega
  | idle => exact absurd hs h.begun.1
  | fault => exact absurd hs h.begun.2
  | done => simp [State.busy, hs, FsmState.busy] at hb

theorem StepCountInv.stepPad (h : StepCountInv s) (hs : s.state = .pad) (he : exec .stepPad s = .next t) :
    StepCountInv t ∧ remainingSteps t + 1 = remainingSteps s := by
  rw [exec_stepPad] at he
  cases he
  have hnb : (BitVec.ofNat 64 (numBlocks s.var s.len)).toNat = numBlocks s.var s.len :=
    Nat.mod_eq_of_lt (numBlocks_lt s.var (len_lt s))
  have hblk : s.blk.toNat = 0 := by simp [h.firstBlock hs]
  have hpos := numBlocks_pos s.var s.len
  constructor
  · exact .of_block (by simp) (show s.blk.toNat < (BitVec.ofNat 64 _).toNat by omega) (by simp)
  · rw [remainingSteps_of_pad hs, remainingSteps_of_load rfl]
    simp only [hnb, hblk, Nat.sub_zero]
    omega

theorem StepCountInv.stepLoad (h : StepCountInv s) (hs : s.state = .load) (he : exec .stepLoad s = .next t) :
    StepCountInv t ∧ remainingSteps t + 1 = remainingSteps s := by
  rw [exec_stepLoad] at he
  cases he
  have hN := rounds_ge s.var
  have hblk := h.blockLeft (by simp [hs])
  constructor
  · exact .of_block (by simp) hblk fun _ => show 16 < rounds s.var by omega
  · rw [remainingSteps_of_load hs, mul_blockSteps_succ hblk, remainingSteps_of_expand rfl, blockSteps]
    simp
    omega

theorem SameBlock.blk (h : SameBlock s t) : t.blk = s.blk := by
  obtain ⟨_, _, _, _, _, _, rfl⟩ := h
  rfl

theorem SameBlock.nb (h : SameBlock s t) : t.nb = s.nb := by
  obtain ⟨_, _, _, _, _, _, rfl⟩ := h
  rfl

theorem StepCountInv.stepExpand (h : StepCountInv s) (hs : s.state = .expand) (he : exec .stepExpand s = .next t) :
    StepCountInv t ∧ remainingSteps t + 1 = remainingSteps s := by
  have hN := rounds_ge s.var
  have hT := h.roundLeft (by simp [hs])
  have hsame : SameBlock s t := .stepExpand he
  have hblk : t.blk.toNat < t.nb.toNat := hsame.blk ▸ hsame.nb ▸ h.blockLeft (by simp [hs])
  have hst := exec_stepExpand_state he
  have ht := exec_stepExpand_t he
  by_cases hl : s.t.toNat = rounds s.var - 1
  · rw [if_pos hl] at hst ht
    have ht0 : t.t.toNat = 0 := by simp [ht]
    refine ⟨.of_block (by simp [hst]) hblk fun _ => by rw [hsame.var]; omega, ?_⟩
    rw [remainingSteps_of_expand hs, remainingSteps_of_round hst, hsame.var, hsame.blk, hsame.nb]
    omega
  · rw [if_neg hl] at hst ht
    have ht1 : t.t.toNat = s.t.toNat + 1 := by rw [ht, toNat_t_succ hT]
    refine ⟨.of_block (by simp [hst, hs]) hblk fun _ => by rw [hsame.var]; omega, ?_⟩
    rw [remainingSteps_of_expand hs, remainingSteps_of_expand (hst.trans hs), hsame.var, hsame.blk, hsame.nb]
    omega

theorem StepCountInv.stepRound (h : StepCountInv s) (hs : s.state = .round) (he : exec .stepRound s = .next t) :
    StepCountInv t ∧ remainingSteps t + 1 = remainingSteps s := by
  have hT := h.roundLeft (by simp [hs])
  have hsame : SameBlock s t := .stepRound he
  have hblk : t.blk.toNat < t.nb.toNat := hsame.blk ▸ hsame.nb ▸ h.blockLeft (by simp [hs])
  have hst := exec_stepRound_state he
  have ht := exec_stepRound_t he
  by_cases hl : s.t.toNat = rounds s.var - 1
  · rw [if_pos hl] at hst
    refine ⟨.of_block (by simp [hst]) hblk (by simp [hst]), ?_⟩
    rw [remainingSteps_of_round hs, remainingSteps_of_fold hst, hsame.var, hsame.blk, hsame.nb]
    omega
  · rw [if_neg hl] at hst ht
    have ht1 : t.t.toNat = s.t.toNat + 1 := by rw [ht, toNat_t_succ hT]
    refine ⟨.of_block (by simp [hst, hs]) hblk fun _ => by rw [hsame.var]; omega, ?_⟩
    rw [remainingSteps_of_round hs, remainingSteps_of_round (hst.trans hs), hsame.var, hsame.blk, hsame.nb]
    omega

/-- BLK does not wrap while it is below NB (R28). -/
theorem toNat_blk_succ (h : s.blk.toNat < s.nb.toNat) : (s.blk + 1).toNat = s.blk.toNat + 1 :=
  BitVec.toNat_add_of_lt (lt_of_le_of_lt h s.nb.isLt)

theorem StepCountInv.stepFold (h : StepCountInv s) (hs : s.state = .fold) (he : exec .stepFold s = .next t) :
    StepCountInv t ∧ remainingSteps t + 1 = remainingSteps s := by
  rw [exec_stepFold] at he
  cases he
  have hblk := h.blockLeft (by simp [hs])
  have hsucc := toNat_blk_succ hblk
  rw [remainingSteps_of_fold hs]
  by_cases hl : s.blk.toNat + 1 = s.nb.toNat
  · simp only [if_pos hl]
    refine ⟨by constructor <;> simp, ?_⟩
    rw [remainingSteps_of_not_busy rfl, hl, Nat.sub_self, Nat.zero_mul]
  · simp only [if_neg hl]
    refine ⟨.of_block (by simp) (show (s.blk + 1).toNat < s.nb.toNat by omega) (by simp), ?_⟩
    rw [remainingSteps_of_load rfl]
    simp only [hsucc]

/-- Each engine step of a hash lowers the count by one (R207). -/
theorem StepCountInv.engineStep (h : StepCountInv s) (hb : s.busy = true) (he : engineStep s = .next t) :
    StepCountInv t ∧ remainingSteps t + 1 = remainingSteps s := by
  rcases engineStep_cases he with ⟨hs, rfl⟩ | ⟨hs, rfl⟩ | ⟨hs, he⟩ | ⟨hs, he⟩ | ⟨hs, he⟩ | ⟨hs, he⟩
  · simp [(busy_eq_false_iff t).mpr hs] at hb
  · exact h.stepPad hs (exec_stepPad s)
  · exact h.stepLoad hs he
  · exact h.stepExpand hs he
  · exact h.stepRound hs he
  · exact h.stepFold hs he

end

/-- Settles O54: the engine's steps count down, and the count looks at nothing that another event of a running hash
changes. -/
theorem engineStepCountsDown : Obligations.EngineStepCountsDown := by
  refine ⟨fun s hseq => ⟨fun h0 => ?_, remainingSteps_of_not_busy⟩, fun s t hseq hb h => ?_⟩
  · cases hb : s.busy with
    | false => rfl
    | true => exact absurd h0 ((hseq.stepCountInv hb).remainingSteps_pos hb).ne'
  · rcases step_cases_by_event h with ⟨ht, he⟩ | ⟨ht, hsame | ⟨hb', -⟩ | ⟨-, hs, -⟩ | ⟨ha, u, -, rfl⟩ | ⟨a, b, -, rfl⟩ |
      ⟨hr, rfl⟩⟩
    · have hcount := StepCountInv.engineStep (s := s.popTurn) { hseq.stepCountInv hb with } hb he
      exact ⟨fun _ => hcount.2, fun hne => absurd ht hne⟩
    all_goals refine ⟨fun heq => absurd heq ht, fun _ => ?_⟩
    · obtain ⟨_, _, _, _, _, _, _, rfl⟩ := hsame
      exact .inl rfl
    · simp [hb] at hb'
    · exact absurd (.inl hb) (not_busy_and_not_fault hs)
    · exact .inr ⟨rfl, .inl ha⟩
    · exact .inl rfl
    · exact .inr ⟨rfl, .inr hr⟩

/-! ### A run of a hash (R207) -/

section
variable {s t : State}

/-- `t` is `s` but for the registers that the engine's steps write, and its records (R200 to R204). -/
def EngineWrites (s t : State) : Prop := ∃ state h v ws T blk nb msgReads fresh,
  t = { s with
    state := state, h := h, v := v, ws := ws, t := T, blk := blk, nb := nb, msgReads := msgReads, fresh := fresh }

theorem SameBlock.engineWrites (h : SameBlock s t) : EngineWrites s t := by
  obtain ⟨_, _, _, _, _, _, rfl⟩ := h
  exact ⟨_, _, _, _, _, _, _, _, _, rfl⟩

theorem engineStep_engineWrites (h : engineStep s = .next t) : EngineWrites s t := by
  rcases engineStep_cases h with ⟨-, rfl⟩ | ⟨-, rfl⟩ | ⟨-, he⟩ | ⟨-, he⟩ | ⟨-, he⟩ | ⟨-, he⟩
  · exact ⟨_, _, _, _, _, _, _, _, _, rfl⟩
  · exact ⟨_, _, _, _, _, _, _, _, _, rfl⟩
  · exact (SameBlock.stepLoad he).engineWrites
  · exact (SameBlock.stepExpand he).engineWrites
  · exact (SameBlock.stepRound he).engineWrites
  · rw [exec_stepFold] at he
    cases he
    exact ⟨_, _, _, _, _, _, _, _, _, rfl⟩

theorem EngineWrites.turns (h : EngineWrites s t) : t.turns = s.turns := by
  obtain ⟨_, _, _, _, _, _, _, _, _, rfl⟩ := h
  rfl

theorem EngineWrites.program (h : EngineWrites s t) : t.program = s.program := by
  obtain ⟨_, _, _, _, _, _, _, _, _, rfl⟩ := h
  rfl

/-- A run of engine steps, from a state in which no turn is listed, keeps what each of them keeps and counts down. -/
theorem run_of_engineStep {P : State → Prop}
    (keeps : ∀ s t, s.busy = true → P s → engineStep s = .next t → P t)
    (h : StepCountInv s) (hturns : s.turns = []) (hP : P s) {n : Nat} (hn : n ≤ remainingSteps s) :
    ∃ t, run n s = .next t ∧ StepCountInv t ∧ P t ∧ t.program = s.program ∧
      remainingSteps t + n = remainingSteps s := by
  induction n generalizing s with
  | zero => exact ⟨s, rfl, h, hP, rfl, rfl⟩
  | succ n ih =>
    have hb : s.busy = true := by
      by_contra hq
      rw [remainingSteps_of_not_busy (by simpa using hq)] at hn
      omega
    obtain ⟨u, he⟩ : ∃ u, engineStep s = .next u := exec_completes _ s
    obtain ⟨hu, hcount⟩ := h.engineStep hb he
    have hw := engineStep_engineWrites he
    obtain ⟨t, hrun, ht, hPt, hpt, hrest⟩ := ih hu (hw.turns.trans hturns) (keeps s u hb hP he) (by omega)
    refine ⟨t, ?_, ht, hPt, hpt.trans hw.program, by omega⟩
    rw [run_succ_of_next ((step_of_busy hb hturns).trans he), hrun]

theorem StepCountInv.state_of_remainingSteps_zero (h : StepCountInv s) (h0 : remainingSteps s = 0) :
    s.state = .done := by
  have hb : s.busy = false := by
    by_contra hb
    exact (h.remainingSteps_pos (by simpa using hb)).ne' h0
  simpa [h.begun.1, h.begun.2] using (busy_eq_false_iff s).mp hb

end

/-- Settles O53: no step of a run without listed turns is another agent's, so the count goes down by one each time. -/
theorem hashStepCount : Obligations.HashStepCount := by
  refine ⟨fun nb => ⟨?v32, ?v64⟩, fun s hs hblk hturns => ?run⟩
  case v32 => rw [hashSteps, Nat.mul_comm]; rfl
  case v64 => rw [hashSteps, Nat.mul_comm]; rfl
  case run =>
    have hinv : StepCountInv s := by constructor <;> simp [hs, hblk]
    have hcount : hashSteps s.var (numBlocks s.var s.msgLen.toNat) = remainingSteps s := (remainingSteps_of_pad hs).symm
    have run_le {n : Nat} (hn : n ≤ remainingSteps s) :=
      run_of_engineStep (P := fun _ => True) (fun _ _ _ _ _ => trivial) hinv hturns trivial hn
    rw [hcount]
    refine ⟨?_, fun n hn => ?_⟩
    · obtain ⟨t, hrun, ht, -, -, hrest⟩ := run_le le_rfl
      exact ⟨t, hrun, ht.state_of_remainingSteps_zero (by omega)⟩
    · obtain ⟨t, hrun, ht, -, -, hrest⟩ := run_le hn.le
      refine ⟨t, hrun, ?_⟩
      by_contra hb
      rw [remainingSteps_of_not_busy (by simpa using hb)] at hrest
      omega


/-! ### The hash of a message, STATE by STATE (R208) -/

section
variable {v : Variant} {len : Nat} {msg : Nat → Byte} {s t : State}

theorem datapathInv_of_pad (hs : s.state = .pad) : DatapathInv v len msg s := by simp [DatapathInv, hs]

theorem datapathInv_iff_of_load (hs : s.state = .load) :
    DatapathInv v len msg s ↔ s.h = zextWords (chaining v len msg s.blk.toNat) := by simp [DatapathInv, hs]

theorem datapathInv_iff_of_expand (hs : s.state = .expand) : DatapathInv v len msg s ↔
    s.h = zextWords (chaining v len msg s.blk.toNat) ∧ s.v = zextWords (chaining v len msg s.blk.toNat) ∧
    ∀ k : Fin 80, k.val < s.t.toNat → s.ws[k] = zext64 ((blockSchedule v len msg s.blk.toNat).getD k.val 0) := by
  simp [DatapathInv, hs]

theorem datapathInv_iff_of_round (hs : s.state = .round) : DatapathInv v len msg s ↔
    s.h = zextWords (chaining v len msg s.blk.toNat) ∧
    s.v = zextWords (roundsDone v (blockSchedule v len msg s.blk.toNat) (chaining v len msg s.blk.toNat) s.t.toNat) ∧
    ∀ k : Fin 80, k.val < rounds v → s.ws[k] = zext64 ((blockSchedule v len msg s.blk.toNat).getD k.val 0) := by
  simp [DatapathInv, hs]

theorem datapathInv_iff_of_fold (hs : s.state = .fold) : DatapathInv v len msg s ↔
    s.h = zextWords (chaining v len msg s.blk.toNat) ∧
    s.v = zextWords
      (roundsDone v (blockSchedule v len msg s.blk.toNat) (chaining v len msg s.blk.toNat) (rounds v)) := by
  simp [DatapathInv, hs]

theorem datapathInv_iff_of_done (hs : s.state = .done) : DatapathInv v len msg s ↔
    s.h = zextWords (digest v len msg) ∧ s.nb.toNat = numBlocks v len ∧ s.blk = s.nb ∧ s.msgReads = List.range len := by
  simp [DatapathInv, hs]

theorem DatapathInv.begun (h : DatapathInv v len msg s) : s.state ≠ .idle ∧ s.state ≠ .fault := by
  constructor <;> intro hs <;> simp [DatapathInv, hs] at h

/-! ### The engine's steps compute the digest (R140, R160, R169, R208) -/

/-- PAD's H is the chaining value before block 0 (R169, R200). -/
theorem DatapathInv.stepPad (hblk : s.blk = 0) (he : exec .stepPad s = .next t) :
    DatapathInv s.var len msg t := by
  rw [exec_stepPad] at he
  cases he
  rw [datapathInv_iff_of_load rfl]
  simp [hblk, chaining, zextWords]

/-- The words that LOAD reads are those of the message, as far as it is read below L (R121, R143). -/
theorem loadWord_eq_blockWord (hst : s.stale = []) (hmem : ∀ j, j < s.len → Memory.read s.mem j = msg j) (k : Nat) :
    loadWord s k = zext64 (blockWord s.var s.len msg s.blk.toNat k) := by
  rw [loadWord_of_stale_nil hst, blockWord, padByte_congr hmem, blockWord]

theorem DatapathInv.stepLoad (h : DatapathInv s.var s.len msg s) (hs : s.state = .load) (hst : s.stale = [])
    (hmem : ∀ j, j < s.len → Memory.read s.mem j = msg j) (he : exec .stepLoad s = .next t) :
    DatapathInv s.var s.len msg t := by
  rw [exec_stepLoad] at he
  cases he
  rw [datapathInv_iff_of_load hs] at h
  rw [datapathInv_iff_of_expand rfl]
  refine ⟨h, ?_, fun k hk => ?_⟩
  · ext k hk
    simp [h]
  · have hk : k.val < 16 := hk
    rw [blockSchedule_getD_block hk, ← loadWord_eq_blockWord hst hmem]
    simp [hk]

/-- EXPAND adds entry T of the block's schedule; the complete schedule and V = H are where the rounds begin. -/
theorem DatapathInv.stepExpand (h : DatapathInv s.var len msg s) (hs : s.state = .expand) (h16 : 16 ≤ s.t.toNat)
    (hN : s.t.toNat < rounds s.var) (he : exec .stepExpand s = .next t) : DatapathInv s.var len msg t := by
  obtain ⟨hh, hv, hws⟩ := (datapathInv_iff_of_expand hs).mp h
  have hentry := expandWord_eq_schedule (blockWords_length ..) h16 hN hws
  have hws' : ∀ k : Fin 80, k.val < s.t.toNat + 1 → (s.ws.setIfInBounds s.t.toNat (zext64 (expandWord s)))[k] =
      zext64 ((blockSchedule s.var len msg s.blk.toNat).getD k.val 0) := by
    intro k hk
    rw [hentry, Fin.getElem_fin, Vector.getElem_setIfInBounds]
    split
    case isTrue hT => rw [hT]; rfl
    case isFalse hT => exact hws k (by omega)
  rw [exec_stepExpand] at he
  cases he
  by_cases hl : s.t.toNat = rounds s.var - 1
  · rw [State.advance_last (by exact hl), datapathInv_iff_of_round rfl]
    exact ⟨hh, hv, fun k hk => hws' k (by omega)⟩
  · rw [State.advance_more (by exact hl), datapathInv_iff_of_expand (by exact hs)]
    exact ⟨hh, hv, fun k hk => hws' k (by simpa only [toNat_t_succ hN] using hk)⟩

theorem DatapathInv.stepRound (h : DatapathInv s.var len msg s) (hs : s.state = .round)
    (hN : s.t.toNat < rounds s.var) (he : exec .stepRound s = .next t) : DatapathInv s.var len msg t := by
  obtain ⟨hh, hv, hws⟩ := (datapathInv_iff_of_round hs).mp h
  rw [exec_stepRound, roundResult_eq_roundsDone hN hws hv] at he
  cases he
  by_cases hl : s.t.toNat = rounds s.var - 1
  · have hend : s.t.toNat + 1 = rounds s.var := by omega
    rw [State.advance_last (by exact hl), datapathInv_iff_of_fold rfl]
    exact ⟨hh, hend ▸ rfl⟩
  · rw [State.advance_more (by exact hl), datapathInv_iff_of_round (by exact hs)]
    refine ⟨hh, ?_, hws⟩
    simp only [toNat_t_succ hN]
    rfl

theorem chainWords_of_zextWords {x : Vector (BitVec (width s.var)) 8} (h : s.h = zextWords x) : chainWords s = x := by
  ext k hk
  simp [chainWords, h]

/-- FOLD's H is the chaining value before the next block, and after the last block the digest (R168, R169). -/
theorem DatapathInv.stepFold (h : DatapathInv s.var s.len msg s) (hs : s.state = .fold)
    (hnb : s.nb.toNat = numBlocks s.var s.len) (hblk : s.blk.toNat < s.nb.toNat)
    (hreads : s.msgReads = List.range (min ((s.blk.toNat + 1) * blockBytes s.var) s.len))
    (he : exec .stepFold s = .next t) : DatapathInv s.var s.len msg t := by
  obtain ⟨hh, hv⟩ := (datapathInv_iff_of_fold hs).mp h
  have hsucc := toNat_blk_succ hblk
  have hchain : t.h = zextWords (chaining s.var s.len msg (s.blk.toNat + 1)) := by
    rw [← chainWords_of_zextWords hh] at hv
    have hsum := fold_eq_compress hv
    rw [chainWords_of_zextWords hh] at hsum
    rw [exec_stepFold] at he
    cases he
    ext k hk
    simp only [Fin.getElem_fin] at hsum
    simp [hsum ⟨k, hk⟩]
    rfl
  rw [exec_stepFold] at he
  cases he
  by_cases hl : s.blk.toNat + 1 = s.nb.toNat
  · simp only [if_pos hl]
    rw [datapathInv_iff_of_done rfl]
    refine ⟨?_, hnb, BitVec.eq_of_toNat_eq (hsucc.trans hl), ?_⟩
    · rw [hchain, hl, hnb]
      rfl
    · have hlen := len_add_le_paddedBytes s.var s.len
      rw [paddedBytes, ← hnb, ← hl] at hlen
      rw [← Nat.min_eq_right (by omega : s.len ≤ (s.blk.toNat + 1) * blockBytes s.var)]
      exact hreads
  · simp only [if_neg hl]
    rw [datapathInv_iff_of_load rfl]
    rw [hchain, hsucc]

theorem DigestInv.engineStep (h : DigestInv v len msg s) (hseq : SequencingInv s) (hreads : MessageReadsInv s)
    (he : engineStep s = .next t) : DigestInv v len msg t := by
  obtain ⟨rfl, hnd, hmessage, hdata⟩ := h
  have hw := engineStep_engineWrites he
  rcases Bool.eq_false_or_eq_true s.busy with hb | hb
  · obtain ⟨rfl, hst, hmem⟩ := hmessage hb
    have hdata' : DatapathInv s.var s.len msg t := by
      rcases engineStep_cases he with ⟨hs, -⟩ | ⟨hs, rfl⟩ | ⟨hs, he⟩ | ⟨hs, he⟩ | ⟨hs, he⟩ | ⟨hs, he⟩
      · simp [(busy_eq_false_iff s).mpr hs] at hb
      · obtain ⟨hblk, -⟩ := (blocksInRange_iff_of_pad hs).mp hseq.blocksInRange
        exact .stepPad hblk (exec_stepPad s)
      · exact hdata.stepLoad hs hst hmem he
      · obtain ⟨h16, hN⟩ := (tInRange_iff_of_expand hs).mp hseq.tInRange
        exact hdata.stepExpand hs h16 hN he
      · exact hdata.stepRound hs ((tInRange_iff_of_round hs).mp hseq.tInRange) he
      · obtain ⟨hnb, hblk⟩ := (blocksInRange_iff_of_block (by simp [hs])).mp hseq.blocksInRange
        exact hdata.stepFold hs hnb hblk ((messageReadsInv_iff_of_loaded (by simp [hs])).mp hreads) he
    obtain ⟨_, _, _, _, _, _, _, _, _, rfl⟩ := hw
    exact ⟨rfl, hnd, fun _ => ⟨rfl, hst, hmem⟩, hdata'⟩
  · have hs : s.state ∈ [.idle, .done, .fault] := by simpa using (busy_eq_false_iff s).mp hb
    rw [(quiescentEngineStays s).2.2.2 hs] at he
    cases he
    exact ⟨rfl, hnd, hmessage, hdata⟩

/-- Another agent's write beside the message of the hash leaves it alone (R71 (a), R72). -/
theorem DigestInv.platformWrite (h : DigestInv v len msg s) {a : Word} (b : Byte)
    (hrace : ¬(s.busy = true ∧ a.toNat < s.len)) : DigestInv v len msg (s.platformWrite a b) where
  var_eq := h.var_eq
  noDigest_clear := h.noDigest_clear
  message hb := by
    obtain ⟨hlen, hst, hmem⟩ := h.message hb
    have hbeyond : s.len ≤ a.toNat := Nat.not_lt.mp fun ha => hrace ⟨hb, ha⟩
    refine ⟨hlen, (State.platformWrite_stale_of_not_racing b (.inr hbeyond)).trans hst, fun j hj => ?_⟩
    rw [State.platformWrite_mem, Memory.read_write_of_ne _ _ (by omega), hmem j hj]
  datapath := h.datapath

end

/-- Settles O42: the engine's steps by STATE; of the other events those that the statement does not exclude change
neither the registers of the hash nor, while it is busy, its message. -/
theorem stepKeepsDigest : Obligations.StepKeepsDigest := by
  intro v len msg s t hseq hreads h hstep habort hreset hrace hhash
  rcases step_cases_by_event hstep with ⟨-, he⟩ | ⟨-, hsame | ⟨hb, d, u, hsame, rfl⟩ | ⟨hv, hs, -⟩ | ⟨ha, -⟩ |
    ⟨a, b, ht, rfl⟩ | ⟨hr, -⟩⟩
  · exact DigestInv.engineStep (s := s.popTurn) { h with } { hseq with } hreads he
  · obtain ⟨_, _, _, _, _, _, _, rfl⟩ := hsame
    exact { h with }
  · obtain ⟨_, _, _, _, _, _, _, rfl⟩ := hsame
    exact { h with message := fun hb' => absurd (hb.symm.trans hb') Bool.false_ne_true }
  · have hdone : s.state = .done := by simpa [h.datapath.begun.1] using hs
    exact absurd ⟨hdone, hv⟩ hhash
  · exact absurd ha habort
  · exact DigestInv.platformWrite (s := s.popTurn) { h with } b fun ⟨hb, ha⟩ => hrace ⟨hb, a, b, ht, ha⟩
  · exact absurd hr hreset


/-! ### A HASH begins a hash (R184, R72) -/

section
variable {v : Variant} {s t : State}

/-- Both forms in which the host writes a HASH to CMD run the same step (R90), which takes it from the program. -/
theorem step_of_takesHash (h : takesHash s v) : ∃ u, SameHash s u ∧ u.turns = s.turns.tail ∧
    u.program = s.program.tail ∧ step s = .next (u.startHash v) := by
  obtain ⟨p, hp, hstep⟩ := step_of_takesCommand h
  refine ⟨{ s.popTurn with program := p }, ⟨_, _, _, _, _, _, _, rfl⟩, rfl, hp.symm, ?_⟩
  rcases hstep with hstep | hstep <;> cases v <;> exact hstep

end

/-- Settles O55: the outcome of an accepted HASH is one of two states, written out. -/
theorem hashBeginsItsDigest : Obligations.HashBeginsItsDigest := by
  intro v s t hv hs hstep
  obtain ⟨u, hu, -, -, hstep'⟩ := step_of_takesHash hv
  cases hstep.symm.trans hstep'
  obtain ⟨_, _, _, _, _, _, _, rfl⟩ := hu
  refine ⟨fun he => ?_, fun he => ?_⟩
  · rw [State.startHash_legacyEmpty v (by exact hs) (by exact he)]
    exact ⟨rfl, rfl, fun k => by simp, if_pos rfl⟩
  · rw [State.startHash_accepted v (by exact hs) (by exact he)]
    refine ⟨rfl, ?_, (messageReadsInv_iff_of_pad rfl).mpr rfl, remainingSteps_of_pad rfl⟩
    exact ⟨rfl, rfl, fun _ => ⟨rfl, rfl, fun _ _ => rfl⟩, datapathInv_of_pad rfl⟩

/-! ### What the call returns (R209) -/

theorem hashResult_of_noDigest_false (v : Variant) {s : State} (h : s.noDigest = false) : hashResult v s =
    some (Vector.ofFn fun k : Fin 8 => lowWord v s.h[k]) := by
  have hk (k : Fin 8) : (BitVec.ofNat 3 k.val).toNat = k.val := Nat.mod_eq_of_lt k.isLt
  rw [hashResult, if_neg (by simp [h])]
  simp only [regValue_regDigest, hk]
  rfl

/-- Settles O56: the digest registers hold H, which the invariant of the hash gives in DONE. -/
theorem endedHashReturnsDigest : Obligations.EndedHashReturnsDigest := by
  refine ⟨fun v s => ?_, fun s => ⟨rfl, rfl⟩, fun v len msg s h hs => ?_⟩
  · cases hn : s.noDigest with
    | false => simp [hashResult_of_noDigest_false v hn]
    | true => simp [hashResult, hn]
  · obtain ⟨hh, -⟩ := (datapathInv_iff_of_done hs).mp h.datapath
    refine ⟨by simp [digestValid, hs, h.noDigest_clear], ?_, fun k => ?_⟩
    · rw [hashResult_of_noDigest_false v h.noDigest_clear, hh]
      congr 1
      ext k hk
      simp
    · obtain ⟨-, -, hvalues⟩ := readReturnsRegisterValue
      obtain ⟨-, -, -, -, -, -, hdigest, -⟩ := hvalues s
      rw [hdigest k, hh]
      exact getElem_zextWords _ _ _

/-! ### The end of a run (R210) -/

theorem runEnded_iff (s : State) : runEnded s = true ↔ s.program = [] ∧ s.state ∈ [.idle, .done, .fault] := by
  have hb := busy_eq_false_iff s
  simp_all [runEnded]

/-- Another agent's write to a quiescent machine changes the memory only (R72). -/
theorem State.platformWrite_of_not_busy {s : State} (a : Word) (b : Byte) (hb : s.busy = false) :
    s.platformWrite a b = { s with mem := Memory.write s.mem a.toNat b } := by
  rw [State.platformWrite, hb, Bool.false_and, if_neg Bool.false_ne_true]

/-- Settles O57: the host issues nothing and the engine has no step, so only the other turns are left. -/
theorem endedRunStaysEnded : Obligations.EndedRunStaysEnded := by
  refine ⟨runEnded_iff, fun s t hend h => ?_⟩
  obtain ⟨hp, hs⟩ := (runEnded_iff s).mp hend
  rw [runEnded_iff]
  cases ht : nextTurn s with
  | engine =>
    rw [step_of_turn ht, turnStep, (quiescentEngineStays s.popTurn).2.2.2 hs] at h
    cases h
    exact ⟨⟨hp, hs⟩, fun _ => rfl⟩
  | host =>
    rw [step_of_host_nil ht hp] at h
    cases h
    exact ⟨⟨hp, hs⟩, fun _ => rfl⟩
  | platformWrite a b =>
    rw [step_of_turn ht, turnStep, State.platformWrite_of_not_busy _ _ (not_busy_of_mem (s := s.popTurn) hs)] at h
    cases h
    exact ⟨⟨hp, hs⟩, fun _ => rfl⟩
  | resetOn =>
    rw [step_of_turn ht, turnStep] at h
    cases h
    exact ⟨⟨hp, by simp⟩, fun hne => absurd rfl hne⟩
  | resetOff =>
    rw [step_of_turn ht, turnStep] at h
    cases h
    exact ⟨⟨hp, hs⟩, fun _ => rfl⟩

/-! ### The run of a single HASH (R208) -/

section
variable {v : Variant} {len : Nat} {msg : Nat → Byte} {s t : State}

/-- No engine step reads or writes ERR_INV: the check that would set it cannot fail (R200, R223). -/
theorem engineStep_setErrInv (he : engineStep s = .next t) (e : Bool) :
    engineStep { s with errInv := e } = .next { t with errInv := e } := by
  rcases engineStep_cases he with ⟨hs, rfl⟩ | ⟨hs, rfl⟩ | ⟨hs, he⟩ | ⟨hs, he⟩ | ⟨hs, he⟩ | ⟨hs, he⟩
  · exact (quiescentEngineStays _).2.2.2 (by simpa using hs)
  · exact (engineStep_pad (by exact hs)).trans (exec_stepPad _)
  · rw [exec_stepLoad] at he
    cases he
    exact engineStep_load (by exact hs)
  · rw [engineStep_expand (by exact hs), exec_stepExpand]
    rw [exec_stepExpand] at he
    by_cases hl : s.t.toNat = rounds s.var - 1
    · rw [State.advance_last (by exact hl)] at he ⊢; cases he; rfl
    · rw [State.advance_more (by exact hl)] at he ⊢; cases he; rfl
  · rw [engineStep_round (by exact hs), exec_stepRound]
    rw [exec_stepRound] at he
    by_cases hl : s.t.toNat = rounds s.var - 1
    · rw [State.advance_last (by exact hl)] at he ⊢; cases he; rfl
    · rw [State.advance_more (by exact hl)] at he ⊢; cases he; rfl
  · rw [exec_stepFold] at he
    cases he
    exact engineStep_fold (by exact hs)

/-- A hash under way with all its invariants, ERR_INV left out of them: HashResult starts from every IDLE or DONE state,
whatever that flag is there. -/
structure HashUnderWay (v : Variant) (len : Nat) (msg : Nat → Byte) (s : State) : Prop where
  turns : s.turns = []
  sequencing : SequencingInv { s with errInv := false }
  reads : MessageReadsInv s
  digest : DigestInv v len msg s

theorem HashUnderWay.engineStep (h : HashUnderWay v len msg s) (hb : s.busy = true) (he : engineStep s = .next t) :
    HashUnderWay v len msg t := by
  have he' := engineStep_setErrInv he false
  have hstep : step { s with errInv := false } = .next { t with errInv := false } :=
    (step_of_busy (s := { s with errInv := false }) hb h.turns).trans he'
  have hreads : MessageReadsInv { t with errInv := false } := stepKeepsMessageReads _ _ h.sequencing h.reads hstep
  have hdigest : DigestInv v len msg { s with errInv := false } := { h.digest with }
  exact {
    turns := (engineStep_engineWrites he).turns.trans h.turns
    sequencing := stepKeepsSequencing _ _ h.sequencing hstep
    reads := hreads
    digest := { hdigest.engineStep h.sequencing h.reads he' with } }

theorem State.startHash_lists (s : State) (v : Variant) :
    (s.startHash v).turns = s.turns ∧ (s.startHash v).program = s.program := by
  rcases s.startHash_cases v with ⟨-, hc⟩ | ⟨-, -, -, -, hc⟩ | ⟨-, -, -, hc⟩ <;> rw [hc] <;> exact ⟨rfl, rfl⟩

/-- The sequencing registers of an accepted HASH (R184), ERR_INV aside. -/
theorem startHash_sequencingInv (hs : s.state ∈ [.idle, .done]) (he : ¬(s.msgLen = 0 ∧ s.cfg.emptyPolicy = .legacy)) :
    SequencingInv { s.startHash v with errInv := false } := by
  rw [State.startHash_accepted v hs he]
  exact {
    tInRange := (tInRange_iff_zero (by simp) (by simp)).mpr rfl
    blocksInRange := (blocksInRange_iff_of_pad rfl).mpr ⟨rfl, rfl⟩
    errInv_iff_fault := by simp
    noDigest_legacy := by simp }

/-- With no turn listed, a hash runs to DONE in the steps that it still needs. -/
theorem HashUnderWay.run_to_done (h : HashUnderWay v len msg s) (hb : s.busy = true) :
    ∃ t, run (remainingSteps s) s = .next t ∧ t.state = .done ∧ t.program = s.program ∧ DigestInv v len msg t := by
  have hinv : StepCountInv s := { h.sequencing.stepCountInv hb with }
  obtain ⟨t, hrun, ht, hunder, hp, hrest⟩ :=
    run_of_engineStep (fun _ _ hb h he => HashUnderWay.engineStep h hb he) hinv h.turns h le_rfl
  exact ⟨t, hrun, ht.state_of_remainingSteps_zero (by omega), hp, hunder.digest⟩

end

/-- Settles O58: the HASH begins the hash by O55, and its steps keep the digest and count down to DONE. (The model has a
function `hashResult`.) -/
theorem hashResultOfRun : Obligations.HashResult := by
  intro s c v hc hs hr hp hturns
  have hturn : nextTurn s = .host := by
    have hnq := not_busy_and_not_fault hs
    rw [nextTurn_nil hturns, if_neg (by simp_all)]
  have hv : takesHash s v := by
    rcases hc with ⟨rfl, rfl⟩ | ⟨rfl, rfl⟩ <;> exact ⟨hr, .inr ⟨hturn, by rw [hp]; rfl⟩⟩
  obtain ⟨u, hu, hut, hup, hstep⟩ := step_of_takesHash hv
  obtain ⟨hlegacy, hbegin⟩ := hashBeginsItsDigest v s _ hv hs hstep
  obtain ⟨hturns', hprogram⟩ := u.startHash_lists v
  rw [hut, hturns] at hturns'
  rw [hup, hp] at hprogram
  refine ⟨fun he => ?_, fun he => ?_⟩
  · obtain ⟨hstate, hnd, hh, -⟩ := hlegacy he
    refine ⟨u.startHash v, ?_, (runEnded_iff _).mpr ⟨hprogram, by simp [hstate]⟩, hstate, hnd, hh⟩
    rw [run_succ_of_next hstep, run_zero]
  · obtain ⟨hstate, hdigest, hreads, hcount⟩ := hbegin he
    have hseq : SequencingInv { u.startHash v with errInv := false } :=
      startHash_sequencingInv (hu.state ▸ hs) (by rwa [hu.msgLen, hu.cfg])
    have hunder : HashUnderWay v s.len (Memory.read s.mem) (u.startHash v) := ⟨hturns', hseq, hreads, hdigest⟩
    obtain ⟨t, hrun, hdone, hpt, ht⟩ := hunder.run_to_done (busy_of_mem (by simp [hstate]))
    obtain ⟨hh, hnb, hblk, hmsg⟩ := (datapathInv_iff_of_done hdone).mp ht.datapath
    refine ⟨t, ?_, (runEnded_iff t).mpr ⟨hpt.trans hprogram, by simp [hdone]⟩, hdone, ht.noDigest_clear, ht.var_eq, hnb,
      hblk, hmsg, fun k => ?_⟩
    · rw [Nat.add_comm, run_succ_of_next hstep]
      exact hcount ▸ hrun
    · rw [hh]
      exact getElem_zextWords _ _ _

end Sys2Proof.Machine

/-! PROOFS. The statements of 60_exceptions.md. -/

namespace Sys2Proof.Machine

/-! ### FAULT is not entered (R127, R200, R223) -/

section
variable {s t : State}

theorem EngineWrites.errInv (h : EngineWrites s t) : t.errInv = s.errInv := by
  obtain ⟨_, _, _, _, _, _, _, _, _, rfl⟩ := h
  rfl

/-- The check of the PAD step cannot fail, and no other engine step leads to FAULT (R200 to R205). -/
theorem engineStep_state_ne_fault (hs : s.state ≠ .fault) (h : engineStep s = .next t) : t.state ≠ .fault := by
  rcases engineStep_cases h with ⟨-, rfl⟩ | ⟨-, rfl⟩ | ⟨-, he⟩ | ⟨-, he⟩ | ⟨-, he⟩ | ⟨-, he⟩
  · exact hs
  · simp
  · rw [exec_stepLoad] at he
    cases he
    simp
  · rw [exec_stepExpand_state he]
    split
    · simp
    · exact hs
  · rw [exec_stepRound_state he]
    split
    · simp
    · exact hs
  · rw [exec_stepFold] at he
    cases he
    dsimp only
    split <;> simp

theorem NeverFaultInv.engineStep (h : NeverFaultInv s) (he : engineStep s = .next t) : NeverFaultInv t where
  state_ne_fault := engineStep_state_ne_fault h.state_ne_fault he
  errInv_clear := (engineStep_engineWrites he).errInv.trans h.errInv_clear

/-- A HASH is rejected, ends in DONE or begins in PAD (R184). -/
theorem NeverFaultInv.startHash (h : NeverFaultInv s) (v : Variant) : NeverFaultInv (s.startHash v) := by
  rcases s.startHash_cases v with ⟨-, hc⟩ | ⟨-, -, -, -, hc⟩ | ⟨-, -, -, hc⟩ <;> rw [hc]
  · exact { h with }
  · exact ⟨by simp, h.errInv_clear⟩
  · exact ⟨by simp, h.errInv_clear⟩

end

/-- Settles O37: of a step's parts only the engine's steps and HASH write another STATE than IDLE, and neither writes
FAULT. -/
theorem stepNeverEntersFault : Obligations.StepNeverEntersFault := by
  intro s t hs h
  exact step_preserves (P := NeverFaultInv) (hs := hs) (h := h)
    (agents := fun s p l h => { h with })
    (port := fun s r n h => { h with })
    (engine := fun s t h he => h.engineStep he)
    (errCmd := fun s h _ => { h with })
    (errBusy := fun s h _ => { h with })
    (msgLen := fun s d h _ _ => { h with })
    (hash := fun s v h _ => h.startHash v)
    (abort := fun s _ _ => ⟨by simp, rfl⟩)
    (platform := fun s a b h => { h with })
    (reset := fun s _ => ⟨by simp, rfl⟩)
    (release := fun s h => { h with })

/-! ### Entering and leaving FAULT (R227, R228) -/

/-- Settles O26: the writes are the definition's, and FAULT has no engine step. -/
theorem faultEntryIsPrecise : Obligations.FaultEntryIsPrecise := fun s blocks =>
  ⟨rfl, (engineStep_fault (s.enterFault_state blocks)).trans (exec_noStepFault _)⟩

/-- Settles O28: by the event of the step. FAULT has no engine step and accepts no HASH, and of the other events only
ABORT and reset write STATE. -/
theorem faultLeftOnlyByAbortOrReset : Obligations.FaultLeftOnlyByAbortOrReset := by
  intro s t hs h hne
  rcases step_cases_by_event h with ⟨-, he⟩ | ⟨-, hsame | ⟨-, d, u, hsame, rfl⟩ | ⟨-, hidle, -⟩ | ⟨ha, u, -, rfl⟩ |
    ⟨a, b, -, rfl⟩ | ⟨ht, rfl⟩⟩
  · rw [engineStep_fault (by exact hs), exec_noStepFault] at he
    cases he
    exact absurd hs hne
  · exact absurd (hsame.state.trans hs) hne
  · exact absurd (hsame.state.trans hs) hne
  · simp [hs] at hidle
  · exact ⟨rfl, .inl ha⟩
  · exact absurd hs hne
  · exact ⟨rfl, .inr ht⟩

/-! ### Who sets an error flag (R221 to R223, R226) -/

/-- The step from `s` to `t` takes no error flag from 0 to 1. -/
structure SetsNoErrorFlag (s t : State) : Prop where
  errCmd : s.errCmd = false → t.errCmd = false
  errBusy : s.errBusy = false → t.errBusy = false
  errInv : s.errInv = false → t.errInv = false

/-- The instructions that R221 lets set ERR_CMD. -/
def SetsErrCmd (i : Instr) : Prop := (∃ c, i = .illegal c) ∨ ∃ c, i = .wrCmd c ∧ cmdLegal c = false

/-- The instructions that R222 lets set ERR_BUSY, each with the states in which it is rejected. -/
def SetsErrBusy (i : Instr) (s : State) : Prop :=
  (s.state ∈ [.pad, .load, .expand, .round, .fold, .fault] ∧
    (i = .hash256 ∨ i = .hash512 ∨ i = .wrCmd 0x1 ∨ i = .wrCmd 0x11)) ∨
  (s.state ∈ [.pad, .load, .expand, .round, .fold] ∧ ∃ d, i = .wrMsgLen d)

section
variable {i : Instr} {s t : State}

theorem SetsNoErrorFlag.refl (s : State) : SetsNoErrorFlag s s := ⟨id, id, id⟩

theorem EngineWrites.setsNoErrorFlag (h : EngineWrites s t) : SetsNoErrorFlag s t := by
  obtain ⟨_, _, _, _, _, _, _, _, _, rfl⟩ := h
  exact ⟨id, id, id⟩

theorem State.abortHash_setsNoErrorFlag (s : State) : SetsNoErrorFlag s s.abortHash :=
  ⟨fun _ => rfl, fun _ => rfl, fun _ => rfl⟩

/-- An accepted HASH clears ERR_CMD and ERR_BUSY; a rejected one sets ERR_BUSY and does nothing else (R184). -/
theorem State.startHash_errorFlags (s : State) (v : Variant)
    (hi : i = .hash256 ∨ i = .hash512 ∨ i = .wrCmd 0x1 ∨ i = .wrCmd 0x11) :
    SetsNoErrorFlag s (s.startHash v) ∨ (SetsErrBusy i s ∧ s.startHash v = s.signalErrBusy) := by
  rcases s.startHash_cases v with ⟨hrej, hc⟩ | ⟨-, -, -, -, hc⟩ | ⟨-, -, -, hc⟩
  · rw [busy_eq_decide] at hrej
    exact .inr ⟨.inl ⟨by simpa [or_assoc] using hrej, hi⟩, hc⟩
  · exact .inl (hc ▸ ⟨fun _ => rfl, fun _ => rfl, id⟩)
  · exact .inl (hc ▸ ⟨fun _ => rfl, fun _ => rfl, id⟩)

/-- Everything an instruction can do to the error flags: it sets none, or it is rejected, sets one and does nothing
else. -/
theorem exec_errorFlag_cases (h : exec i s = .next t) :
    SetsNoErrorFlag s t ∨ (SetsErrCmd i ∧ t = s.signalErrCmd) ∨ (SetsErrBusy i s ∧ t = s.signalErrBusy) := by
  cases i with
  | wrCmd c =>
    cases h
    cases c using commandCases with
    | nop => exact .inl (.refl s)
    | hash256 => exact (s.startHash_errorFlags .v32 (by simp)).imp_right .inr
    | hash512 => exact (s.startHash_errorFlags .v64 (by simp)).imp_right .inr
    | abort => exact .inl s.abortHash_setsNoErrorFlag
    | illegal c hl => exact .inr (.inl ⟨.inr ⟨c, rfl, hl⟩, runCommand_of_not_legal s hl⟩)
  | wrMsgLen d =>
    rw [exec_wrMsgLen] at h
    cases h
    split
    · rename_i hb
      rw [busy_eq_decide, decide_eq_true_eq] at hb
      exact .inr (.inr ⟨.inr ⟨hb, d, rfl⟩, rfl⟩)
    · exact .inl ⟨id, id, id⟩
  | rd r => cases h; exact .inl ⟨id, id, id⟩
  | wrStatus d => cases h; exact .inl (.refl s)
  | wrNblk d => cases h; exact .inl (.refl s)
  | wrBlkcntRsv l d => cases h; exact .inl (.refl s)
  | wrDigest k d => cases h; exact .inl (.refl s)
  | wrWvRsv l d => cases h; exact .inl (.refl s)
  | nop => cases h; exact .inl (.refl s)
  | hash256 => cases h; exact (s.startHash_errorFlags .v32 (by simp)).imp_right .inr
  | hash512 => cases h; exact (s.startHash_errorFlags .v64 (by simp)).imp_right .inr
  | abort => cases h; exact .inl s.abortHash_setsNoErrorFlag
  | illegal c => cases h; exact .inr (.inl ⟨.inl ⟨c, rfl⟩, rfl⟩)
  | noStepIdle => cases h; exact .inl (.refl s)
  | noStepDone => cases h; exact .inl (.refl s)
  | noStepFault => cases h; exact .inl (.refl s)
  | stepPad => rw [exec_stepPad] at h; cases h; exact .inl ⟨id, id, id⟩
  | stepLoad => exact .inl (SameBlock.stepLoad h).engineWrites.setsNoErrorFlag
  | stepExpand => exact .inl (SameBlock.stepExpand h).engineWrites.setsNoErrorFlag
  | stepRound => exact .inl (SameBlock.stepRound h).engineWrites.setsNoErrorFlag
  | stepFold => rw [exec_stepFold] at h; cases h; exact .inl ⟨id, id, id⟩

end

/-- Settles O29: an instruction that sets a flag is a rejected one, and leaves the other flags as they are. -/
theorem errorFlagSetters : Obligations.ErrorFlagSetters := by
  intro i s t h
  rcases exec_errorFlag_cases h with ⟨hcmd, hbusy, hinv⟩ | ⟨hi, rfl⟩ | ⟨hi, rfl⟩
  · exact ⟨fun h0 h1 => by simp [hcmd h0] at h1, fun h0 h1 => by simp [hbusy h0] at h1, hinv,
      fun ⟨h0, h1, _⟩ => by simp [hcmd h0] at h1⟩
  · exact ⟨fun _ _ => hi, fun h0 h1 => by simp [h0] at h1, id, fun ⟨_, _, h0, h1⟩ => by simp [h0] at h1⟩
  · exact ⟨fun h0 h1 => by simp [h0] at h1, fun _ _ => hi, id, fun ⟨h0, h1, _⟩ => by simp [h0] at h1⟩

end Sys2Proof.Machine

/-! PROOFS. The statements of 70_reset_and_hazards.md. -/

namespace Sys2Proof.Machine

/-! ### While reset is held (R250) -/

section
variable {s t : State}

/-- A state in which reset is not held meets the invariant. -/
theorem ResetHeldInv.of_not_held (hr : s.resetHeld = false) : ResetHeldInv s := fun h => by simp [hr] at h

/-- The fields outside R20 are free while reset is held. -/
theorem ResetHeldInv.setOutside (h : ResetHeldInv s) (mem : Memory) (program : List HostOp) (turns : List Turn)
    (rdata : Word) (stale : List Host.Cell) (fresh : Nat) : ResetHeldInv { s with
      mem := mem, program := program, turns := turns, rdata := rdata, stale := stale, fresh := fresh } := fun hr =>
  congrArg (fun u : State => { u with
    mem := mem, program := program, turns := turns, rdata := rdata, stale := stale, fresh := fresh }) (h hr)

/-- While reset is held STATE is IDLE. -/
theorem ResetHeldInv.state_idle (h : ResetHeldInv s) (hr : s.resetHeld = true) : s.state = .idle :=
  congrArg State.state (h hr).symm

theorem EngineWrites.resetHeld (h : EngineWrites s t) : t.resetHeld = s.resetHeld := by
  obtain ⟨_, _, _, _, _, _, _, _, _, rfl⟩ := h
  rfl

/-- The engine has no step in IDLE (R205), so none while reset is held. -/
theorem ResetHeldInv.engineStep (h : ResetHeldInv s) (he : engineStep s = .next t) : ResetHeldInv t := by
  cases hr : s.resetHeld with
  | false => exact .of_not_held ((engineStep_engineWrites he).resetHeld.trans hr)
  | true =>
    rw [engineStep_idle (h.state_idle hr), exec_noStepIdle] at he
    cases he
    exact h

theorem State.startHash_resetHeld (s : State) (v : Variant) : (s.startHash v).resetHeld = s.resetHeld := by
  rcases s.startHash_cases v with ⟨-, hc⟩ | ⟨-, -, -, -, hc⟩ | ⟨-, -, -, hc⟩
  · rw [hc, State.signalErrBusy_resetHeld]
  · rw [hc]
  · rw [hc]

end

/-- Settles O40: while reset is held no transaction is performed and the engine has no step; the other agents write
nothing of R20. -/
theorem stepKeepsHeldReset : Obligations.StepKeepsHeldReset := by
  intro s t hs h
  exact step_preserves (P := ResetHeldInv) (hs := hs) (h := h)
    (agents := fun s p l h => h.setOutside s.mem p l s.rdata s.stale s.fresh)
    (port := fun s r n h => h.setOutside s.mem s.program s.turns r s.stale n)
    (engine := fun s t h he => h.engineStep he)
    (errCmd := fun s _ hr => .of_not_held hr)
    (errBusy := fun s _ hr => .of_not_held hr)
    (msgLen := fun s d _ hr _ => .of_not_held hr)
    (hash := fun s v _ hr => .of_not_held ((s.startHash_resetHeld v).trans hr))
    (abort := fun s _ hr => .of_not_held hr)
    (platform := fun s a b h => h.setOutside _ s.program s.turns s.rdata _ s.fresh)
    (reset := fun s _ _ => rfl)
    (release := fun s _ => .of_not_held rfl)

/-! ### The host while reset is held (R250) -/

section
variable {s : State}

/-- While reset is held no transaction is performed. -/
theorem hostStep_of_resetHeld (hr : s.resetHeld = true) (e : Encoded) : hostStep e s = .next (s.heldTransaction e) :=
  if_pos hr

theorem State.heldTransaction_of_write (s : State) {header : BitVec 6} (hw : headerWE header = true) (d : Word) :
    s.heldTransaction (.host header d) = s := if_pos hw

theorem State.heldTransaction_of_read (s : State) {header : BitVec 6} (hw : headerWE header = false) (d : Word) :
    s.heldTransaction (.host header d) = { s with rdata := Config.heldRead s.fresh, fresh := s.fresh + 1 } :=
  if_neg (by simp [hw])

/-- A poll goes by the free value that its read got. -/
theorem pollStep_of_resetHeld (hr : s.resetHeld = true) (reg : BitVec 5) (mask value : Word) :
    pollStep reg mask value s = .next
      ({ s with rdata := Config.heldRead s.fresh, fresh := s.fresh + 1 }.afterPoll reg mask value) := by
  rw [pollStep, hostStep_of_resetHeld hr, pollEncoded, State.heldTransaction_of_read s (headerWE_mkHeader false reg)]

end

/-- Settles O34: the turns of the reset input by their own equations, the host's by the kind of its entry. -/
theorem heldResetBlocksHost : Obligations.HeldResetBlocksHost := by
  intro s
  refine ⟨step_of_turn, ⟨rfl, rfl, rfl, rfl⟩, step_of_turn, fun ht hr => ⟨?write, ?command, ?read, ?poll⟩⟩
  all_goals have hheld (rest) : State.resetHeld { s with turns := s.turns.tail, program := rest } = true := hr
  case write =>
    intro header d rest hp hw
    rw [step_of_host_cons ht hp, opStep, hostStep_of_resetHeld (hheld rest), State.heldTransaction_of_write _ hw]
  case command =>
    intro c rest hp
    rw [step_of_host_cons ht hp, opStep, hostStep_of_resetHeld (hheld rest), State.heldTransaction]
  case read =>
    intro header d rest hp hw
    rw [step_of_host_cons ht hp, opStep, hostStep_of_resetHeld (hheld rest), State.heldTransaction_of_read _ hw]
    exact ⟨_, _, rfl⟩
  case poll =>
    intro reg mask value rest hp
    refine ⟨Config.heldRead s.fresh, s.fresh + 1, ?_⟩
    rw [step_of_host_cons ht hp, opStep, pollStep_of_resetHeld (hheld rest), State.afterPoll]
    split
    · rfl
    · rw [hp]

/-! ### The host's wait (R90, R265) -/

/-- The host waits: its program is the statement `wait`, and nothing keeps it from reading STATUS. -/
structure Waiting (s : State) : Prop where
  sequencing : SequencingInv s
  reset_released : s.resetHeld = false
  program : s.program = assemble [.wait]

/-- The wait has ended: it read BUSY = 0, and the engine is still not busy. -/
structure WaitEnded (s : State) : Prop where
  program : s.program = []
  not_busy : s.busy = false
  read_zero : s.rdata.getLsbD 0 = false

section
variable {s t : State}

/-- BUSY is bit 0 of STATUS (R31). -/
theorem getLsbD_statusWord_zero (s : State) : (statusWord s).getLsbD 0 = s.busy := by
  rw [getLsbD_statusWord s (by decide)]
  simp

/-- The value for which `wait` looks is BUSY = 0 (R90). -/
theorem wait_matches_iff (s : State) : regValue s regStatus &&& 0x1 = 0x0 ↔ s.busy = false := by
  show statusWord s &&& 1#64 = 0#64 ↔ _
  rw [BitVec.and_one_eq_setWidth_ofBool_getLsbD, getLsbD_statusWord_zero]
  cases s.busy <;> decide

/-- The host's read ends the wait when the engine is not busy, and else leaves the host waiting (R89). -/
theorem Waiting.host (h : Waiting s) (ht : nextTurn s = .host) : ∃ t, step s = .next t ∧ t.turns = s.turns.tail ∧
    (Waiting t ∨ WaitEnded t) ∧ (s.busy = false → WaitEnded t) := by
  obtain ⟨hmatch, hdiffers⟩ := pollReadsUntilMatch s regStatus 0x1 0x0 [] ht h.program h.reset_released
  cases hb : s.busy with
  | false =>
    have hended : WaitEnded { s with turns := s.turns.tail, program := [], rdata := regValue s regStatus } :=
      ⟨rfl, hb, (getLsbD_statusWord_zero s).trans hb⟩
    exact ⟨_, hmatch ((wait_matches_iff s).mpr hb), rfl, .inr hended, fun _ => hended⟩
  | true =>
    have hne : regValue s regStatus &&& 0x1 ≠ 0x0 := by rw [Ne, wait_matches_iff, hb]; simp
    exact ⟨_, hdiffers hne, rfl, .inl ⟨{ h.sequencing with }, h.reset_released, h.program⟩, by simp⟩

/-- A step of another agent than the host, reset aside, leaves the host waiting. -/
theorem Waiting.of_other (h : Waiting s) (hne : nextTurn s ≠ .host ∧ nextTurn s ≠ .resetOn) (hstep : step s = .next t) :
    t.turns = s.turns.tail ∧ Waiting t := by
  have hseq := stepKeepsSequencing s t h.sequencing hstep
  rcases step_cases hstep with ⟨-, he⟩ | ⟨ht, -⟩ | ⟨a, b, -, rfl⟩ | ⟨ht, -⟩ | ⟨-, rfl⟩
  · have hw := engineStep_engineWrites he
    exact ⟨hw.turns, hseq, hw.resetHeld.trans h.reset_released, hw.program.trans h.program⟩
  · exact absurd ht hne.1
  · exact ⟨rfl, hseq, h.reset_released, h.program⟩
  · exact absurd ht hne.2
  · exact ⟨rfl, hseq, rfl, h.program⟩

/-- Every step but the reset event leaves the host waiting or ends the wait. -/
theorem Waiting.step (h : Waiting s) (hne : nextTurn s ≠ .resetOn) :
    ∃ t, step s = .next t ∧ t.turns = s.turns.tail ∧ (Waiting t ∨ WaitEnded t) := by
  by_cases ht : nextTurn s = .host
  · obtain ⟨t, hstep, hturns, hwait, -⟩ := h.host ht
    exact ⟨t, hstep, hturns, hwait⟩
  · obtain ⟨t, hstep⟩ := turnStep_completes (nextTurn s) s.popTurn
    obtain ⟨hturns, hwait⟩ := h.of_other ⟨ht, hne⟩ hstep
    exact ⟨t, hstep, hturns, .inl hwait⟩

/-- With no turn listed the host moves when the engine is not busy, and reads BUSY = 0. -/
theorem Waiting.run_of_not_busy (h : Waiting s) (hturns : s.turns = []) (hb : s.busy = false) :
    ∃ t, run 1 s = .next t ∧ WaitEnded t := by
  have ht : nextTurn s = .host := by rw [nextTurn_nil hturns, if_neg]; simp [hb, h.program, assemble, Statement.ops]
  obtain ⟨t, hstep, -, -, hended⟩ := h.host ht
  exact ⟨t, (run_succ_of_next hstep 0).trans (run_zero t), hended hb⟩

/-- With no turn listed the hash first runs to its end (R207), and then the host reads. -/
theorem Waiting.run_of_no_turns (h : Waiting s) (hturns : s.turns = []) : ∃ n t, run n s = .next t ∧ WaitEnded t := by
  cases hb : s.busy with
  | false => exact ⟨1, h.run_of_not_busy hturns hb⟩
  | true =>
    have keeps (s t : State) (hb : s.busy = true) (h : Waiting s ∧ s.turns = []) (he : engineStep s = .next t) :
        Waiting t ∧ t.turns = [] := by
      have hstep := (step_of_busy hb h.2).trans he
      have ht : nextTurn s = .engine := by rw [nextTurn_nil h.2, if_pos (.inl hb)]
      obtain ⟨htail, hwait⟩ := h.1.of_other (by simp [ht]) hstep
      exact ⟨hwait, by rw [htail, h.2, List.tail_nil]⟩
    obtain ⟨u, hrun, hu, ⟨hwait, hturns'⟩, -, hrest⟩ :=
      run_of_engineStep keeps (h.sequencing.stepCountInv hb) hturns ⟨h, hturns⟩ le_rfl
    have hdone : u.state = .done := hu.state_of_remainingSteps_zero (by omega)
    obtain ⟨t, hread, hended⟩ := hwait.run_of_not_busy hturns' (not_busy_of_mem (by simp [hdone]))
    exact ⟨remainingSteps s + 1, t, (run_add_of_next hrun 1).trans hread, hended⟩

/-- The wait ends within the listed turns, or after them by the fair rule (R265). -/
theorem Waiting.run_to_end (h : Waiting s) (hreset : .resetOn ∉ s.turns) : ∃ n t, run n s = .next t ∧ WaitEnded t := by
  induction hl : s.turns generalizing s with
  | nil => exact h.run_of_no_turns hl
  | cons turn rest ih =>
    rw [hl, List.mem_cons, not_or] at hreset
    have hne : nextTurn s ≠ .resetOn := by rw [nextTurn_cons hl]; exact Ne.symm hreset.1
    obtain ⟨u, hstep, hturns, hwait | hended⟩ := h.step hne
    · rw [hl, List.tail_cons] at hturns
      obtain ⟨n, t, hrun, hended⟩ := ih hwait (hturns ▸ hreset.2) hturns
      exact ⟨n + 1, t, (run_succ_of_next hstep n).trans hrun, hended⟩
    · exact ⟨1, u, (run_succ_of_next hstep 0).trans (run_zero u), hended⟩

end

/-- Settles O59: by induction on the listed turns; after them the count of engine steps left goes down to 0. -/
theorem waitTerminates : Obligations.WaitTerminates := by
  intro s hseq hr hp hreset
  have hwait : Waiting s := ⟨hseq, hr, hp⟩
  obtain ⟨n, t, hrun, hended⟩ := hwait.run_to_end hreset
  exact ⟨n, t, hrun, hended.program, hended.not_busy, hended.read_zero⟩

end Sys2Proof.Machine
